-- ==== Sys2Proof/Word.lean ====
section
/-! DEFINITION. The word sizes of the CHIP-8 core (spec 00_scope.md R8, R15): nothing here but names for widths. -/

namespace Sys2Proof

/-- `u8` (R15): general registers, timers, memory bytes, `kk`. -/
abbrev Byte := BitVec 8

/-- `u16` (R15): the instruction word, `I`, `PC`, the call-stack entries. -/
abbrev Word := BitVec 16

/-- A nibble (R20): the fields `x`, `y`, `n`, and a register or key number. -/
abbrev Nibble := BitVec 4

/-- The 12-bit address field `nnn` (R102). -/
abbrev Addr12 := BitVec 12

end Sys2Proof
end

