-- ==== Sys2Proof/Config.lean ====
section
/-! DEFINITION. What an implementation fixes (00_scope.md R9 to R12) and the free values the spec leaves open
(R13; 20_memory.md R81). The default values stand in Machine/Fonts.lean. -/

namespace Sys2Proof

/-- The configuration parameters of the core (10_state.md R30 names these five), fixed for its life (R9, D38).
DESIGN CHOICE (log 1, safe): State carries this record, no step writes it, so a statement about every state is a
statement about every configuration. -/
structure Config where
  /-- `schip_mode` (R9): enables the SCHIP-only opcodes and the alternate shift, collision and LD-[I] semantics. -/
  schipMode : Bool
  /-- `max_rom_size` (R10), read by `load_program` alone. -/
  maxRomSize : Nat
  /-- `FONT_SMALL` (R11): 16 glyphs of 5 bytes, preloaded at 0x050. -/
  fontSmall : Vector Byte 80
  /-- `LARGE_FONT_BASE` (R12). -/
  largeFontBase : Word
  /-- `FONT_LARGE` (R12): 10 glyphs of 10 bytes; OPEN in the spec. -/
  fontLarge : Vector Byte 100
  deriving DecidableEq, Repr

/-- FREE VALUE (log 3): the byte the random oracle answers at its `n`-th draw (R13, R184, D36: any value 0..255).
It has no body: nothing can be proved of its values. -/
opaque Config.randomByte : Nat → Byte

/-- FREE VALUE (log 4): whether, in a multi-byte transfer that runs off the end of memory, byte `k` (below the first
out-of-range one) was transferred before the core stopped; R81: "not specified". `n` is the draw's number. -/
opaque Config.transferred : Nat → Nat → Bool

end Sys2Proof
end

