-- ==== Sys2Proof/Syntax.lean ====
section
/-! DEFINITION. The instruction set: one constructor for each of the 43 rows of spec/opcode_table.json
(30_encoding.md R111), in the order of R111. Operand types carry the field widths of R102 and R103. -/

namespace Sys2Proof

/-- One instruction of the core. The pattern in each docstring is the row's pattern (R111). -/
inductive Instr where
  /-- `00E0` CLS (R251) -/
  | cls
  /-- `00EE` RET (R140) -/
  | ret
  /-- `1nnn` JP nnn (R141) -/
  | jp (nnn : Addr12)
  /-- `2nnn` CALL nnn (R142) -/
  | call (nnn : Addr12)
  /-- `3xkk` SE Vx, kk (R143) -/
  | seImm (x : Nibble) (kk : Byte)
  /-- `4xkk` SNE Vx, kk (R144) -/
  | sneImm (x : Nibble) (kk : Byte)
  /-- `5xy0` SE Vx, Vy (R145) -/
  | seReg (x y : Nibble)
  /-- `6xkk` LD Vx, kk (R172) -/
  | ldImm (x : Nibble) (kk : Byte)
  /-- `7xkk` ADD Vx, kk (R173) -/
  | addImm (x : Nibble) (kk : Byte)
  /-- `8xy0` LD Vx, Vy (R174) -/
  | ldReg (x y : Nibble)
  /-- `8xy1` OR Vx, Vy (R175) -/
  | orReg (x y : Nibble)
  /-- `8xy2` AND Vx, Vy (R176) -/
  | andReg (x y : Nibble)
  /-- `8xy3` XOR Vx, Vy (R177) -/
  | xorReg (x y : Nibble)
  /-- `8xy4` ADD Vx, Vy (R178) -/
  | addReg (x y : Nibble)
  /-- `8xy5` SUB Vx, Vy (R179) -/
  | sub (x y : Nibble)
  /-- `8xy6` SHR Vx, Vy (R181) -/
  | shr (x y : Nibble)
  /-- `8xy7` SUBN Vx, Vy (R182) -/
  | subn (x y : Nibble)
  /-- `8xyE` SHL Vx, Vy (R183) -/
  | shl (x y : Nibble)
  /-- `9xy0` SNE Vx, Vy (R146) -/
  | sneReg (x y : Nibble)
  /-- `Annn` LD I, nnn (R210) -/
  | ldI (nnn : Addr12)
  /-- `Bnnn` JP V0, nnn (R147) -/
  | jpV0 (nnn : Addr12)
  /-- `Cxkk` RND Vx, kk (R184) -/
  | rnd (x : Nibble) (kk : Byte)
  /-- `Dxyn` DRW Vx, Vy, n (R252) -/
  | drw (x y n : Nibble)
  /-- `Ex9E` SKP Vx (R290) -/
  | skp (x : Nibble)
  /-- `ExA1` SKNP Vx (R291) -/
  | sknp (x : Nibble)
  /-- `Fx07` LD Vx, DT (R292) -/
  | ldVxDT (x : Nibble)
  /-- `Fx0A` LD Vx, K (R295) -/
  | ldVxK (x : Nibble)
  /-- `Fx15` LD DT, Vx (R293) -/
  | ldDTVx (x : Nibble)
  /-- `Fx18` LD ST, Vx (R294) -/
  | ldSTVx (x : Nibble)
  /-- `Fx1E` ADD I, Vx (R211) -/
  | addI (x : Nibble)
  /-- `Fx29` LD F, Vx (R212) -/
  | ldF (x : Nibble)
  /-- `Fx30` LD HF, Vx (R213) -/
  | ldHF (x : Nibble)
  /-- `Fx33` LD B, Vx (R214) -/
  | ldB (x : Nibble)
  /-- `Fx55` LD [I], Vx (R216) -/
  | storeRegs (x : Nibble)
  /-- `Fx65` LD Vx, [I] (R217) -/
  | loadRegs (x : Nibble)
  /-- `00Cn` SCD n (R253, schip) -/
  | scd (n : Nibble)
  /-- `00FB` SCR (R254, schip) -/
  | scr
  /-- `00FC` SCL (R255, schip) -/
  | scl
  /-- `00FD` EXIT (R320, schip) -/
  | exit
  /-- `00FE` LOW (R256, schip) -/
  | low
  /-- `00FF` HIGH (R257, schip) -/
  | high
  /-- `Fx75` LD R, Vx (R321, schip) -/
  | saveRpl (x : Nibble)
  /-- `Fx85` LD Vx, R (R322, schip) -/
  | loadRpl (x : Nibble)
  deriving DecidableEq, Repr

end Sys2Proof
end

