-- ==== Sys2Proof/WellFormed.lean ====
section
/-! DEFINITION. Well-formedness. Every operand of `Instr` is bounded by its type, and the spec forbids no operand value
(30_encoding.md R104, R114), so every instruction is well-formed; the configuration has the two checks of 00_scope.md R12. -/

namespace Sys2Proof

/-- An instruction is well-formed when each field fits its place in the word (R102, R103). The field types are exactly
those widths and R114 reserves no operand value, so this holds of every term: no ill-formed instruction can be written. -/
def Instr.wellFormed (_i : Instr) : Bool := true

/-- R12, D2: the large font lies after the small one ... -/
def Config.largeFontAfterSmall (c : Config) : Bool := decide (0x0A0 ≤ c.largeFontBase.toNat)

/-- ... and its 100 bytes end below the program area (R12, D2). -/
def Config.largeFontBelowProgram (c : Config) : Bool := decide (c.largeFontBase.toNat + 100 ≤ 0x200)

/-- The constraint R12 puts on every admitted configuration. -/
def Config.wellFormed (c : Config) : Bool := c.largeFontAfterSmall && c.largeFontBelowProgram

end Sys2Proof
end

