-- ==== Sys2Proof/Decode.lean ====
section
/-! DEFINITION. The decoder and the encoder (30_encoding.md R100 to R114). The decoder is total: a word is one
instruction, or it is rejected as an unknown opcode, which the tick reports and treats as a no-op (R112). -/

namespace Sys2Proof

/-- Why bytes are no instruction. -/
inductive Reject where
  /-- No row of R111 matches the word (R112): safe, the tick reports it and goes on. -/
  | unknownOpcode (op : Word)
  /-- Fewer than two bytes were given. Never met by a tick, whose fetch reads two bytes or faults (R101). -/
  | truncated
  deriving DecidableEq, Repr

/-! ### Fields (R102) -/

/-- `a = op[15:12]`, the family. -/
def fieldA (op : Word) : Nibble := op.extractLsb' 12 4
/-- `x = op[11:8]`. -/
def fieldX (op : Word) : Nibble := op.extractLsb' 8 4
/-- `y = op[7:4]`. -/
def fieldY (op : Word) : Nibble := op.extractLsb' 4 4
/-- `n = op[3:0]`. -/
def fieldN (op : Word) : Nibble := op.extractLsb' 0 4
/-- `kk = op[7:0]`. -/
def fieldKK (op : Word) : Byte := op.extractLsb' 0 8
/-- `nnn = op[11:0]`. -/
def fieldNNN (op : Word) : Addr12 := op.extractLsb' 0 12

/-! ### Formats (R103) -/

/-- Format ADDR: family, `nnn`. Format FIX is this one with a fixed `nnn`. -/
def wordADDR (a : Nibble) (nnn : Addr12) : Word := a ++ nnn
/-- Format XKK: family, `x`, `kk`. Format X is this one with a fixed `kk`. -/
def wordXKK (a x : Nibble) (kk : Byte) : Word := a ++ x ++ kk
/-- Formats XY and XYN: family, `x`, `y`, low nibble. Format SCN is this one with 0, 0, 0xC. -/
def wordXYN (a x y n : Nibble) : Word := a ++ x ++ y ++ n

/-! ### Dispatch (R110, R111) -/

/-- Family 0: the FIX rows and `00Cn`. -/
def decode0 (op : Word) : Except Reject Instr :=
  match (fieldNNN op).toNat with
  | 0x0E0 => .ok .cls
  | 0x0EE => .ok .ret
  | 0x0FB => .ok .scr
  | 0x0FC => .ok .scl
  | 0x0FD => .ok .exit
  | 0x0FE => .ok .low
  | 0x0FF => .ok .high
  | _ => if fieldX op = 0 ∧ fieldY op = 0xC then .ok (.scd (fieldN op)) else .error (.unknownOpcode op)

/-- Family 8: the register-register group, by its low nibble (D6). -/
def decode8 (op : Word) : Except Reject Instr :=
  match (fieldN op).toNat with
  | 0x0 => .ok (.ldReg (fieldX op) (fieldY op))
  | 0x1 => .ok (.orReg (fieldX op) (fieldY op))
  | 0x2 => .ok (.andReg (fieldX op) (fieldY op))
  | 0x3 => .ok (.xorReg (fieldX op) (fieldY op))
  | 0x4 => .ok (.addReg (fieldX op) (fieldY op))
  | 0x5 => .ok (.sub (fieldX op) (fieldY op))
  | 0x6 => .ok (.shr (fieldX op) (fieldY op))
  | 0x7 => .ok (.subn (fieldX op) (fieldY op))
  | 0xE => .ok (.shl (fieldX op) (fieldY op))
  | _ => .error (.unknownOpcode op)

/-- Family E: the key skips, by `kk`. -/
def decodeE (op : Word) : Except Reject Instr :=
  match (fieldKK op).toNat with
  | 0x9E => .ok (.skp (fieldX op))
  | 0xA1 => .ok (.sknp (fieldX op))
  | _ => .error (.unknownOpcode op)

/-- Family F, by `kk`. -/
def decodeF (op : Word) : Except Reject Instr :=
  match (fieldKK op).toNat with
  | 0x07 => .ok (.ldVxDT (fieldX op))
  | 0x0A => .ok (.ldVxK (fieldX op))
  | 0x15 => .ok (.ldDTVx (fieldX op))
  | 0x18 => .ok (.ldSTVx (fieldX op))
  | 0x1E => .ok (.addI (fieldX op))
  | 0x29 => .ok (.ldF (fieldX op))
  | 0x30 => .ok (.ldHF (fieldX op))
  | 0x33 => .ok (.ldB (fieldX op))
  | 0x55 => .ok (.storeRegs (fieldX op))
  | 0x65 => .ok (.loadRegs (fieldX op))
  | 0x75 => .ok (.saveRpl (fieldX op))
  | 0x85 => .ok (.loadRpl (fieldX op))
  | _ => .error (.unknownOpcode op)

/-- The dispatch of R110: the one row of R111 whose pattern matches, or the rejection of R112. -/
def decodeWord (op : Word) : Except Reject Instr :=
  match (fieldA op).toNat with
  | 0x0 => decode0 op
  | 0x1 => .ok (.jp (fieldNNN op))
  | 0x2 => .ok (.call (fieldNNN op))
  | 0x3 => .ok (.seImm (fieldX op) (fieldKK op))
  | 0x4 => .ok (.sneImm (fieldX op) (fieldKK op))
  | 0x5 => if fieldN op = 0 then .ok (.seReg (fieldX op) (fieldY op)) else .error (.unknownOpcode op)
  | 0x6 => .ok (.ldImm (fieldX op) (fieldKK op))
  | 0x7 => .ok (.addImm (fieldX op) (fieldKK op))
  | 0x8 => decode8 op
  | 0x9 => if fieldN op = 0 then .ok (.sneReg (fieldX op) (fieldY op)) else .error (.unknownOpcode op)
  | 0xA => .ok (.ldI (fieldNNN op))
  | 0xB => .ok (.jpV0 (fieldNNN op))
  | 0xC => .ok (.rnd (fieldX op) (fieldKK op))
  | 0xD => .ok (.drw (fieldX op) (fieldY op) (fieldN op))
  | 0xE => decodeE op
  | _ => decodeF op

/-- The instruction word of two bytes, the byte at the lower address first (R78, R101: big-endian). -/
def wordOfBytes (hi lo : Byte) : Word := hi ++ lo
/-- The byte of a word that lies at the lower address (R78). -/
def hiByte (op : Word) : Byte := op.extractLsb' 8 8
/-- The byte of a word that lies at the higher address (R78). -/
def loByte (op : Word) : Byte := op.extractLsb' 0 8

/-- Decode the instruction at the head of a byte string; answers the rest of the string. Total on any bytes. -/
def decode : List Byte → Except Reject (Instr × List Byte)
  | hi :: lo :: rest =>
    match decodeWord (wordOfBytes hi lo) with
    | .ok i => .ok (i, rest)
    | .error e => .error e
  | _ => .error .truncated

/-! ### Encoder, from the same table (R111, R103) -/

/-- The word of an instruction. -/
def encode : Instr → Word
  | .cls => wordADDR 0x0 0x0E0
  | .ret => wordADDR 0x0 0x0EE
  | .jp nnn => wordADDR 0x1 nnn
  | .call nnn => wordADDR 0x2 nnn
  | .seImm x kk => wordXKK 0x3 x kk
  | .sneImm x kk => wordXKK 0x4 x kk
  | .seReg x y => wordXYN 0x5 x y 0x0
  | .ldImm x kk => wordXKK 0x6 x kk
  | .addImm x kk => wordXKK 0x7 x kk
  | .ldReg x y => wordXYN 0x8 x y 0x0
  | .orReg x y => wordXYN 0x8 x y 0x1
  | .andReg x y => wordXYN 0x8 x y 0x2
  | .xorReg x y => wordXYN 0x8 x y 0x3
  | .addReg x y => wordXYN 0x8 x y 0x4
  | .sub x y => wordXYN 0x8 x y 0x5
  | .shr x y => wordXYN 0x8 x y 0x6
  | .subn x y => wordXYN 0x8 x y 0x7
  | .shl x y => wordXYN 0x8 x y 0xE
  | .sneReg x y => wordXYN 0x9 x y 0x0
  | .ldI nnn => wordADDR 0xA nnn
  | .jpV0 nnn => wordADDR 0xB nnn
  | .rnd x kk => wordXKK 0xC x kk
  | .drw x y n => wordXYN 0xD x y n
  | .skp x => wordXKK 0xE x 0x9E
  | .sknp x => wordXKK 0xE x 0xA1
  | .ldVxDT x => wordXKK 0xF x 0x07
  | .ldVxK x => wordXKK 0xF x 0x0A
  | .ldDTVx x => wordXKK 0xF x 0x15
  | .ldSTVx x => wordXKK 0xF x 0x18
  | .addI x => wordXKK 0xF x 0x1E
  | .ldF x => wordXKK 0xF x 0x29
  | .ldHF x => wordXKK 0xF x 0x30
  | .ldB x => wordXKK 0xF x 0x33
  | .storeRegs x => wordXKK 0xF x 0x55
  | .loadRegs x => wordXKK 0xF x 0x65
  | .scd n => wordXYN 0x0 0x0 0xC n
  | .scr => wordADDR 0x0 0x0FB
  | .scl => wordADDR 0x0 0x0FC
  | .exit => wordADDR 0x0 0x0FD
  | .low => wordADDR 0x0 0x0FE
  | .high => wordADDR 0x0 0x0FF
  | .saveRpl x => wordXKK 0xF x 0x75
  | .loadRpl x => wordXKK 0xF x 0x85

/-- The bytes of an instruction as they lie in memory, lowest address first (R78). -/
def encodeBytes (i : Instr) : List Byte := [hiByte (encode i), loByte (encode i)]

/-- The word `w` is the encoding of `i` and of nothing else: decoder and encoder agree on the pair. -/
def Encodes (w : Word) (i : Instr) : Prop := decodeWord w = .ok i ∧ encode i = w

/-- The word the host's table question means: its bits are `w`, numbered with bit 0 the least significant bit of the
(first and only) word, and every bit at or above `nbits` is 0. -/
def tableWord (nbits w : Nat) : Word := BitVec.ofNat 16 (w % 2 ^ nbits)

/-- The instruction the decoder reads from such a word, laid out in memory as the hardware stores it (R78). -/
def decodeTableWord (nbits w : Nat) : Option Instr :=
  match decode [hiByte (tableWord nbits w), loByte (tableWord nbits w)] with
  | .ok p => some p.1
  | .error _ => none

end Sys2Proof
end

