-- ==== Sys2Proof/Machine/Fonts.lean ====
section
/-! DEFINITION. The two glyph sets' default bytes, the default configuration, and what memory holds after reset
(20_memory.md R74 to R77, 70_reset_and_hazards.md R401). -/

namespace Sys2Proof.Machine

/-- `FONT_SMALL` (R76, D1): the common CHIP-8 font, five bytes a glyph. PRESUMED by the spec itself (log 2). -/
def fontSmallDefault : Vector Byte 80 :=
  #v[0xF0, 0x90, 0x90, 0x90, 0xF0, 0x20, 0x60, 0x20, 0x20, 0x70,
     0xF0, 0x10, 0xF0, 0x80, 0xF0, 0xF0, 0x10, 0xF0, 0x10, 0xF0,
     0x90, 0x90, 0xF0, 0x10, 0x10, 0xF0, 0x80, 0xF0, 0x10, 0xF0,
     0xF0, 0x80, 0xF0, 0x90, 0xF0, 0xF0, 0x10, 0x20, 0x40, 0x40,
     0xF0, 0x90, 0xF0, 0x90, 0xF0, 0xF0, 0x90, 0xF0, 0x10, 0xF0,
     0xF0, 0x90, 0xF0, 0x90, 0x90, 0xE0, 0x90, 0xE0, 0x90, 0xE0,
     0xF0, 0x80, 0x80, 0x80, 0xF0, 0xE0, 0x90, 0x90, 0x90, 0xE0,
     0xF0, 0x80, 0xF0, 0x80, 0xF0, 0xF0, 0x80, 0xF0, 0x80, 0x80]

/-- `FONT_LARGE`, the value R77 suggests for an OPEN parameter (log 2, unsafe for a claim about `State.reset` that
reads these bytes; every statement about all states holds for any value). -/
def fontLargeSuggested : Vector Byte 100 :=
  #v[0x3C, 0x7E, 0xE7, 0xC3, 0xC3, 0xC3, 0xC3, 0xE7, 0x7E, 0x3C,
     0x18, 0x38, 0x58, 0x18, 0x18, 0x18, 0x18, 0x18, 0x18, 0x3C,
     0x3E, 0x7F, 0xC3, 0x06, 0x0C, 0x18, 0x30, 0x60, 0xFF, 0xFF,
     0x3C, 0x7E, 0xC3, 0x03, 0x0E, 0x0E, 0x03, 0xC3, 0x7E, 0x3C,
     0x06, 0x0E, 0x1E, 0x36, 0x66, 0xC6, 0xFF, 0xFF, 0x06, 0x06,
     0xFF, 0xFF, 0xC0, 0xC0, 0xFC, 0xFE, 0x03, 0xC3, 0x7E, 0x3C,
     0x3E, 0x7C, 0xE0, 0xC0, 0xFC, 0xFE, 0xC3, 0xC3, 0x7E, 0x3C,
     0xFF, 0xFF, 0x03, 0x06, 0x0C, 0x18, 0x30, 0x60, 0x60, 0x60,
     0x3C, 0x7E, 0xC3, 0xC3, 0x7E, 0x7E, 0xC3, 0xC3, 0x7E, 0x3C,
     0x3C, 0x7E, 0xC3, 0xC3, 0x7F, 0x3F, 0x03, 0x03, 0x3E, 0x7C]

/-- The configuration of `State.reset` (log 2): base mode, as 95_test_vectors.md's conventions start; the spec's
defaults for the fonts (R76, R77) and for `LARGE_FONT_BASE` (R12); the greatest program size that fits (R10). -/
def defaultConfig : Config :=
  { schipMode := false
    maxRomSize := 3584
    fontSmall := fontSmallDefault
    largeFontBase := 0x0A0
    fontLarge := fontLargeSuggested }

/-- Where the small font starts (R74, R75). -/
def smallFontBase : Nat := 0x050

/-- The size of memory (R70). -/
def memSize : Nat := 4096

/-- The byte at address `a` right after reset (R401): the small font at 0x050, the large font at `LARGE_FONT_BASE`,
every other byte 0. It is what an address that memory does not list reads as. -/
def resetByte (c : Config) (a : Nat) : Byte :=
  if smallFontBase ≤ a ∧ a < smallFontBase + 80 then
    (c.fontSmall[a - smallFontBase]?).getD 0
  else if c.largeFontBase.toNat ≤ a ∧ a < c.largeFontBase.toNat + 100 then
    (c.fontLarge[a - c.largeFontBase.toNat]?).getD 0
  else 0

end Sys2Proof.Machine
end

