-- ==== Sys2Proof/Machine/Memory.lean ====
section
/-! DEFINITION. Memory as plain data (20_memory.md R70): the bytes that differ from what reset left, address by address,
in one canonical form. The functions take the reset contents `d` (see `resetByte`) as an argument. -/

namespace Sys2Proof.Machine

/-- The (address, byte) pairs of the bytes that differ from the reset contents, addresses strictly rising. -/
abbrev Memory := List Host.Cell

/-- The byte at `a`: the listed one, or the reset contents. -/
def Memory.read (d : Nat → Byte) : Memory → Nat → Byte
  | [], a => d a
  | (k, b) :: m, a => if k = a then b else Memory.read d m a

/-- Memory after byte `v` is stored at `a`. Storing what an unlisted address reads as removes the entry. -/
def Memory.write (d : Nat → Byte) : Memory → Nat → Byte → Memory
  | [], a, v => if v = d a then [] else [(a, v)]
  | (k, b) :: m, a, v =>
    if a < k then
      if v = d a then (k, b) :: m else (a, v) :: (k, b) :: m
    else if a = k then
      if v = d a then m else (a, v) :: m
    else (k, b) :: Memory.write d m a v

/-- The canonical form from address `lo` on: addresses rise strictly and lie below 4096, and no entry equals what an
unlisted address reads as. -/
def Memory.wfFrom (d : Nat → Byte) : Nat → Memory → Bool
  | _, [] => true
  | lo, (k, b) :: m => decide (lo ≤ k) && decide (k < memSize) && decide (b ≠ d k) && Memory.wfFrom d (k + 1) m

/-- The canonical form: equal memories are equal lists. -/
def Memory.wf (d : Nat → Byte) (m : Memory) : Bool := Memory.wfFrom d 0 m

end Sys2Proof.Machine
end

