-- ==== Sys2Proof/Machine/Screen.lean ====
section
/-! DEFINITION. The framebuffer's pixels as plain data (10_state.md R42): a list of rows, top row first, each row a list
of pixels, leftmost first; and the named operations on it (43_display.md). -/

namespace Sys2Proof.Machine

/-- The pixel rows (R42): row `y` counts from the top edge, column `x` from the left edge (D11). -/
abbrev Screen := List (List Bool)

/-- Pixel `fb[y][x]`; a place outside the grid reads as 0. -/
def Screen.pixel (fb : Screen) (x y : Nat) : Bool := (fb.getD y []).getD x false

/-- A grid of `w` by `h` pixels, all 0. -/
def Screen.blank (w h : Nat) : Screen := List.replicate h (List.replicate w false)

/-- The grid has `h` rows of `w` pixels. -/
def Screen.wf (w h : Nat) (fb : Screen) : Bool := decide (fb.length = h) && fb.all (fun row => decide (row.length = w))

/-- `fb[y][x] <- fb[y][x] ^ 1` (R250, R252). -/
def Screen.flip (fb : Screen) (x y : Nat) : Screen := fb.modify y (fun row => row.modify x not)

/-- R253: every row moves down by `n`; the top `n` rows become 0; rows past the bottom are lost. -/
def Screen.scrollDown (w h n : Nat) (fb : Screen) : Screen :=
  (List.replicate n (List.replicate w false) ++ fb).take h

/-- R254: every pixel moves right by 4; columns 0 to 3 become 0; the 4 rightmost are lost. -/
def Screen.scrollRight (w : Nat) (fb : Screen) : Screen :=
  fb.map (fun row => (List.replicate 4 false ++ row).take w)

/-- R255: every pixel moves left by 4; the 4 rightmost columns become 0; the 4 leftmost are lost. -/
def Screen.scrollLeft (fb : Screen) : Screen :=
  fb.map (fun row => row.drop 4 ++ List.replicate 4 false)

/-- One sprite row (the inner loop of R252): for each listed column `c` whose bit `7 - c` is set, XOR the pixel at
`((x0 + c) mod w, py)`. Answers the grid, and whether some pixel was 1 before its XOR. -/
def Screen.blitRow (w : Nat) (b : Byte) (x0 py : Nat) : List Nat → Screen → Screen × Bool
  | [], fb => (fb, false)
  | c :: cs, fb =>
    if b.getLsbD (7 - c) then
      let px := (x0 + c) % w
      let rest := Screen.blitRow w b x0 py cs (Screen.flip fb px py)
      (rest.1, Screen.pixel fb px py || rest.2)
    else Screen.blitRow w b x0 py cs fb

/-- The sprite rows from number `r` on (the outer loop of R252). Answers the grid, and the number of rows in which some
pixel was erased. -/
def Screen.blit (w h x0 y0 : Nat) : Nat → List Byte → Screen → Screen × Nat
  | _, [], fb => (fb, 0)
  | r, b :: bs, fb =>
    let row := Screen.blitRow w b x0 ((y0 + r) % h) (List.range 8) fb
    let rest := Screen.blit w h x0 y0 (r + 1) bs row.1
    (rest.1, (if row.2 then 1 else 0) + rest.2)

end Sys2Proof.Machine
end

