-- ==== Sys2Proof/Machine/State.lean ====
section
/-! DEFINITION. The state of the core (10_state.md R30), the ways it can stop, and the state after reset
(70_reset_and_hazards.md R400). -/

namespace Sys2Proof.Machine

/-- The fatal conditions (60_exceptions.md R351), with the value recorded. The spec describes their entry (R350: `fault`
is set, the tick ends, the core is stopped until reset), so a raise is a NEXT state with `State.fault` set (log 6), and
`step` answers `Host.Outcome.fault` for none of them. Safe: nothing is claimed of the stopped core but its fault. -/
inductive Fault where
  /-- Raised by CALL when 16 entries are in use (R142); the address of the CALL. Safe. -/
  | stackOverflow (callAddr : Word)
  /-- Raised by RET when the stack is empty (R140); the address of the RET. Safe. -/
  | stackUnderflow (retAddr : Word)
  /-- Raised by the fetch, DRW, LD B, LD [I] and LD Vx,[I] on an address at or above 4096 (R72); the first such address.
  Safe (D4). -/
  | memoryOutOfRange (addr : Nat)
  /-- Raised by SKP and SKNP when V[x] is 16 or more (R290, R291); the value V[x]. Safe (D20). -/
  | keyIndexOutOfRange (value : Byte)
  deriving DecidableEq, Repr

/-- Why a step gives no meaning. Every instruction has its meaning, so no step answers any of these. -/
inductive Refusal where
  /-- For an arm of `exec` that has no meaning yet: raised by none. Safe. -/
  | notModelled (mnemonic : String)
  deriving DecidableEq, Repr

/-- The reported conditions (60_exceptions.md R357), with the operands of the rule that reports: one diagnostic event
each, with no effect on the architectural state (R356). -/
inductive Report where
  /-- A word no row matches (R112). -/
  | unknownOpcode (op : Word)
  /-- A SCHIP-only word while `schip_mode` is false (R113). -/
  | schipOnlyOpcode (op : Word)
  /-- LD HF with V[x] above 9 (R213). -/
  | largeFontDigitOutOfRange (op : Word) (value : Byte)
  /-- LD R,Vx or LD Vx,R with x above 7 (R321, R322). -/
  | rplIndexOutOfRange (op : Word) (x : Nibble)
  deriving DecidableEq, Repr

/-- The state record of R30, the configuration it runs under (log 1), and two fields of the model's own (log 3, log 5). -/
structure State where
  /-- `V[0..15]` (R31). -/
  v : Vector Byte 16
  /-- `I` (R35). -/
  i : Word
  /-- `PC` (R33). -/
  pc : Word
  /-- `stack[0..15]` (R37). -/
  stack : Vector Word 16
  /-- `SP`, 0..16 (R37). -/
  sp : Fin 17
  /-- `DT` (R39). -/
  dt : Byte
  /-- `ST` (R39). -/
  st : Byte
  /-- `mem[0..4095]` (R70). -/
  mem : Memory
  /-- `keys[0..15]` (R40). -/
  keys : Vector Bool 16
  /-- `awaiting` (R41). -/
  awaiting : Bool
  /-- `target` (R41). -/
  target : Nibble
  /-- `hires` (R42). -/
  hires : Bool
  /-- `fb` (R42). -/
  fb : Screen
  /-- `changed` (R43). -/
  changed : Bool
  /-- `rpl[0..7]` (R44). -/
  rpl : Vector Byte 8
  /-- `quit` (R45). -/
  quit : Bool
  /-- `fault` (R46). -/
  fault : Option Fault
  /-- The configuration (R9 to R12): read-only (log 1). -/
  cfg : Config
  /-- MODEL'S OWN (log 3): how many free values have been drawn. -/
  draws : Nat
  /-- MODEL'S OWN (log 5): the diagnostic events emitted, oldest first; no rule reads it (R356). -/
  reports : List Report
  deriving DecidableEq, Repr

/-- The state after construction or reset under a configuration (R400, R401, R402). -/
def State.resetWith (c : Config) : State :=
  { v := Vector.replicate 16 0
    i := 0
    pc := 0x200
    stack := Vector.replicate 16 0
    sp := 0
    dt := 0
    st := 0
    mem := []
    keys := Vector.replicate 16 false
    awaiting := false
    target := 0
    hires := false
    fb := Screen.blank 64 32
    changed := false
    rpl := Vector.replicate 8 0
    quit := false
    fault := none
    cfg := c
    draws := 0
    reports := [] }

/-- The machine right after reset (R400), under the default configuration (log 2). -/
def State.reset : State := State.resetWith defaultConfig

end Sys2Proof.Machine
end

