-- ==== Sys2Proof/Machine/Ops.lean ====
section
/-! DEFINITION. The named operations over the state: registers, program counter, call stack, memory transfers, screen,
reports, and the one operation that raises a fatal condition. Every meaning is written over these. -/

namespace Sys2Proof.Machine

/-- What a step answers. -/
abbrev Result := Host.Outcome State Fault Refusal

/-! ### Field updates -/

/-- Replace the general registers. -/
def State.withV (s : State) (v : Vector Byte 16) : State := { s with v := v }
/-- Replace the program counter. -/
def State.withPc (s : State) (pc : Word) : State := { s with pc := pc }
/-- Replace the index register. -/
def State.withI (s : State) (i : Word) : State := { s with i := i }
/-- Replace the call stack and its count. -/
def State.withStack (s : State) (stack : Vector Word 16) (sp : Fin 17) : State := { s with stack := stack, sp := sp }
/-- Replace the two timers. -/
def State.withTimers (s : State) (dt st : Byte) : State := { s with dt := dt, st := st }
/-- Replace memory. -/
def State.withMem (s : State) (mem : Memory) : State := { s with mem := mem }
/-- Replace the key latch. -/
def State.withKeys (s : State) (keys : Vector Bool 16) : State := { s with keys := keys }
/-- Replace the key-wait state. -/
def State.withWait (s : State) (awaiting : Bool) (target : Nibble) : State :=
  { s with awaiting := awaiting, target := target }
/-- Replace the resolution, the pixels and the changed flag. -/
def State.withScreen (s : State) (hires : Bool) (fb : Screen) (changed : Bool) : State :=
  { s with hires := hires, fb := fb, changed := changed }
/-- Replace the RPL flag bytes. -/
def State.withRpl (s : State) (rpl : Vector Byte 8) : State := { s with rpl := rpl }
/-- Replace the quit flag. -/
def State.withQuit (s : State) (quit : Bool) : State := { s with quit := quit }
/-- Replace the recorded fatal condition. -/
def State.withFault (s : State) (fault : Option Fault) : State := { s with fault := fault }
/-- Replace the count of free values drawn. -/
def State.withDraws (s : State) (draws : Nat) : State := { s with draws := draws }
/-- Replace the list of events. -/
def State.withReports (s : State) (reports : List Report) : State := { s with reports := reports }

/-! ### General registers (R31) -/

/-- `V[x]`. -/
def State.getV (s : State) (x : Nibble) : Byte := s.v[x.toNat]'(x.isLt)

/-- `V[x] <- b` (R17). -/
def State.setV (s : State) (x : Nibble) (b : Byte) : State := s.withV (s.v.set x.toNat b x.isLt)

/-- `VF`, the only flag (R36). -/
def State.getVF (s : State) : Byte := s.getV 0xF

/-- `VF <- b`. -/
def State.setVF (s : State) (b : Byte) : State := s.setV 0xF b

/-- The values of `V[k]` for `k` from `k0` on, `n` of them, in index order (R215). -/
def State.regsFrom (s : State) : Nat → Nat → List Byte
  | _, 0 => []
  | k, n + 1 => s.getV (BitVec.ofNat 4 k) :: s.regsFrom (k + 1) n

/-- `V[k] <- b` for each listed byte, `k` counting up from `k0` (R215). -/
def State.setRegsFrom : State → Nat → List Byte → State
  | s, _, [] => s
  | s, k, b :: bs => (s.setV (BitVec.ofNat 4 k) b).setRegsFrom (k + 1) bs

/-! ### Program counter and call stack (R33, R37) -/

/-- `pc <- PC + 2`, modulo 65536: the fetch's advance (R101), and the skip (R18). -/
def State.advancePc (s : State) : State := s.withPc (s.pc + 2)

/-- Skip the next instruction when `c` holds (R18). -/
def State.skipIf (s : State) (c : Bool) : State := if c then s.advancePc else s

/-- The address of the instruction executing: the fetch has advanced `PC` by 2 (R33, R101). -/
def State.instrAddr (s : State) : Word := s.pc - 2

/-! ### Raising a fatal condition (R350): the one exception entry of this hardware

It records the kind and its info in `fault`; the tick ends (the timers are not stepped, R340) and every later tick
leaves the state as it is (R341). There is no saved register, no vector and no return (R361, R362): only the host's
reset clears it. -/

/-- `raise Fatal(kind, info)`. -/
def State.raise (s : State) (f : Fault) : State := s.withFault (some f)

/-- `report(kind, info)` (R356): one event, no other effect. -/
def State.report (s : State) (r : Report) : State := s.withReports (s.reports ++ [r])

/-! ### Free values (log 3, log 4) -/

/-- The next byte of the random oracle (R13). -/
def State.randomByte (s : State) : Byte := Config.randomByte s.draws

/-- One free value has been drawn. -/
def State.nextDraw (s : State) : State := s.withDraws (s.draws + 1)

/-! ### Memory (R72, R80, R81) -/

/-- The byte memory holds at `a`. -/
def State.readByte (s : State) (a : Nat) : Byte := s.mem.read (resetByte s.cfg) a

/-- Memory with byte `b` at `a`. -/
def State.writeByte (s : State) (a : Nat) (b : Byte) : State := s.withMem (s.mem.write (resetByte s.cfg) a b)

/-- `MemRead(a, 1)` (R72): the byte, or the fatal condition. -/
def State.memRead (s : State) (a : Nat) : Except Fault Byte :=
  if a < memSize then .ok (s.readByte a) else .error (.memoryOutOfRange a)

/-- The bytes at `a`, `a + 1`, ..., `n` of them, or the fatal condition at the first address out of range (R80, R81). -/
def State.readBlock (s : State) : Nat → Nat → Except Fault (List Byte)
  | _, 0 => .ok []
  | a, n + 1 =>
    match s.memRead a with
    | .error f => .error f
    | .ok b =>
      match s.readBlock (a + 1) n with
      | .error f => .error f
      | .ok bs => .ok (b :: bs)

/-- The first address out of range among `a`, `a + 1`, ..., `n` of them (R81), if there is one. -/
def firstOutOfRange (a n : Nat) : Option Nat := if n = 0 ∨ a + n ≤ memSize then none else some (max a memSize)

/-- Store the bytes at `a`, `a + 1`, ... -/
def State.storeBytes : State → Nat → List Byte → State
  | s, _, [] => s
  | s, a, b :: bs => (s.writeByte a b).storeBytes (a + 1) bs

/-- Of the bytes for `a`, `a + 1`, ..., store those that free value number `d` lets through, byte `k` by the answer at `k`
(log 4). -/
def State.storeSome (d : Nat) : State → Nat → Nat → List Byte → State
  | s, _, _, [] => s
  | s, a, k, b :: bs =>
    (if Config.transferred d k then s.writeByte a b else s).storeSome d (a + 1) (k + 1) bs

/-- A multi-byte store (R80). `.ok`: every byte was stored. `.error`: the state in which the fatal condition was raised,
at the first address out of range; which of the bytes below it were stored is free (R81, log 4). -/
def State.storeBlock (s : State) (a : Nat) (bs : List Byte) : Except State State :=
  match firstOutOfRange a bs.length with
  | none => .ok (s.storeBytes a bs)
  | some bad => .error (((State.storeSome s.draws s a 0 (bs.take (bad - a))).nextDraw).raise (.memoryOutOfRange bad))

/-- Of the bytes for `V[k]`, `V[k+1]`, ..., load those that free value number `d` lets through (log 4). -/
def State.loadSome (d : Nat) : State → Nat → List Byte → State
  | s, _, [] => s
  | s, k, b :: bs =>
    (if Config.transferred d k then s.setV (BitVec.ofNat 4 k) b else s).loadSome d (k + 1) bs

/-- The bytes memory holds at `a`, `a + 1`, ..., `n` of them, with no bounds check. -/
def State.peekBlock (s : State) : Nat → Nat → List Byte
  | _, 0 => []
  | a, n + 1 => s.readByte a :: s.peekBlock (a + 1) n

/-- A multi-byte load of `V[0]`, `V[1]`, ..., `n` of them, from `a` on (R80, R215). `.error` as in `State.storeBlock`. -/
def State.loadBlock (s : State) (a n : Nat) : Except State State :=
  match s.readBlock a n with
  | .ok bs => .ok (s.setRegsFrom 0 bs)
  | .error f => .error (((State.loadSome s.draws s 0 (s.peekBlock a (memSize - a))).nextDraw).raise f)

/-! ### RPL flags (R44) -/

/-- `rpl[k]` for `k` below 8. -/
def State.getRpl (s : State) (k : Nat) : Byte := (s.rpl[k]?).getD 0

/-- `rpl[k] <- b` for `k` below 8. -/
def State.setRpl (s : State) (k : Nat) (b : Byte) : State := s.withRpl (s.rpl.setIfInBounds k b)

/-- `rpl[k] <- V[k]` for `k` from `k0` on, `n` of them (R321). -/
def State.saveRplFrom : State → Nat → Nat → State
  | s, _, 0 => s
  | s, k, n + 1 => (s.setRpl k (s.getV (BitVec.ofNat 4 k))).saveRplFrom (k + 1) n

/-- The bytes `rpl[k]` for `k` from `k0` on, `n` of them (R322). -/
def State.rplFrom (s : State) : Nat → Nat → List Byte
  | _, 0 => []
  | k, n + 1 => s.getRpl k :: s.rplFrom (k + 1) n

/-! ### Screen (R42, R43, R250) -/

/-- `W` of a resolution (R250). -/
def widthOf (hires : Bool) : Nat := if hires then 128 else 64
/-- `H` of a resolution (R250). -/
def heightOf (hires : Bool) : Nat := if hires then 64 else 32

/-- The current `W` (R250). -/
def State.width (s : State) : Nat := widthOf s.hires
/-- The current `H` (R250). -/
def State.height (s : State) : Nat := heightOf s.hires

/-- `fb[y][x]`. -/
def State.pixel (s : State) (x y : Nat) : Bool := s.fb.pixel x y

/-- Put a picture on the screen at the current resolution and mark it changed (R43). -/
def State.redraw (s : State) (fb : Screen) : State := s.withScreen s.hires fb true

/-- Select a resolution: every pixel 0, marked changed (R256, R257). -/
def State.setResolution (s : State) (hires : Bool) : State :=
  s.withScreen hires (Screen.blank (widthOf hires) (heightOf hires)) true

/-! ### Mode gate (R113) -/

/-- A SCHIP-only instruction: its effect in SCHIP mode, the report and nothing else in base mode (R113). -/
def State.schipOnly (s : State) (i : Instr) (effect : State → State) : State :=
  if s.cfg.schipMode then effect s else s.report (.schipOnlyOpcode (encode i))

end Sys2Proof.Machine
end

