-- ==== Sys2Proof/Machine/Flags.lean ====
section
/-! DEFINITION. The values written to `VF` as a flag (10_state.md R36) and the order of the two writes (R171). -/

namespace Sys2Proof.Machine

/-- A flag bit as a register value: 1 or 0 (R170). -/
def flagByte (c : Bool) : Byte := if c then 1 else 0

/-- Carry of an add: the 9-bit sum exceeds 255 (R178). -/
def carryFlag (a b : Byte) : Byte := flagByte (decide (a.toNat + b.toNat > 255))

/-- No borrow of `a - b`, strict: `a > b` (R179, R182, D8). -/
def noBorrowFlag (a b : Byte) : Byte := flagByte (decide (a.toNat > b.toNat))

/-- The bit a right shift by one loses: bit 0 (R181). -/
def shrFlag (src : Byte) : Byte := flagByte (src.getLsbD 0)

/-- The bit a left shift by one loses: bit 7 (R183). -/
def shlFlag (src : Byte) : Byte := flagByte (src.getLsbD 7)

/-- The collision value of a draw: in SCHIP mode the number of rows that erased a pixel, in base mode 1 if any did
(R252, D14). -/
def collisionFlag (c : Config) (collRows : Nat) : Byte :=
  if c.schipMode then BitVec.ofNat 8 collRows else flagByte (decide (0 < collRows))

/-- Write a result and its flag: the result first, the flag last, so that the flag stands when `x = F` (R171, D9). -/
def State.setResultFlag (s : State) (x : Nibble) (result flag : Byte) : State := (s.setV x result).setVF flag

end Sys2Proof.Machine
end

