-- ==== Sys2Proof/Machine/Operands.lean ====
section
/-! DEFINITION. The operand forms: immediates (30_encoding.md R104), the shift source (41_register_alu.md R180), the
address in `I` (42_index_memory.md), glyph addresses (20_memory.md R75), key numbers (44_timers_input.md R290). -/

namespace Sys2Proof.Machine

/-- `zext_16(nnn)` (R104). -/
def addrOf (nnn : Addr12) : Word := nnn.setWidth 16

/-- `zext_16(V[x])` (R147, R211). -/
def State.wordV (s : State) (x : Nibble) : Word := (s.getV x).setWidth 16

/-- The operand of SHR and SHL: `V[x]` in SCHIP mode, `V[y]` in base mode (R180). -/
def State.shiftSource (s : State) (x y : Nibble) : Byte := if s.cfg.schipMode then s.getV x else s.getV y

/-- The address in `I`, as an unbounded number: `I + k` is computed without wrap (R72, D4). -/
def State.iAddr (s : State) : Nat := s.i.toNat

/-- How many registers `V0..Vx` are (R215). -/
def regCount (x : Nibble) : Nat := x.toNat + 1

/-- The address of a small-font glyph, `0x050 + 5 * V[x]`, with no masking (R212, D21). -/
def smallGlyphAddr (d : Byte) : Word := BitVec.ofNat 16 (smallFontBase + 5 * d.toNat)

/-- The address of a large-font glyph, `LARGE_FONT_BASE + 10 * V[x]` (R213). -/
def largeGlyphAddr (c : Config) (d : Byte) : Word := BitVec.ofNat 16 (c.largeFontBase.toNat + 10 * d.toNat)

/-- The three decimal digits of a byte, hundreds first (R214). -/
def bcdDigits (v : Byte) : List Byte :=
  [BitVec.ofNat 8 (v.toNat / 100), BitVec.ofNat 8 (v.toNat / 10 % 10), BitVec.ofNat 8 (v.toNat % 10)]

/-- `keys[k]`, for a value below 16 (R40); any other value is the fatal condition (R290, R291, D20). -/
def State.keyPressed (s : State) (k : Byte) : Except Fault Bool :=
  match s.keys[k.toNat]? with
  | some b => .ok b
  | none => .error (.keyIndexOutOfRange k)

/-- The post-increment of `I` by the block transfers: `I + x + 1` in base mode, none in SCHIP mode (R215). -/
def State.advanceI (s : State) (x : Nibble) : State :=
  if s.cfg.schipMode then s else s.withI (s.i + BitVec.ofNat 16 (regCount x))

end Sys2Proof.Machine
end

