-- ==== Sys2Proof/Machine/Alu.lean ====
section
/-! DEFINITION. Register loads and arithmetic (41_register_alu.md): unsigned, 8 bits, wrapping (R170). -/

namespace Sys2Proof.Machine

/-- LD Vx, kk (R172). -/
def execLdImm (x : Nibble) (kk : Byte) (s : State) : Result := .next (s.setV x kk)

/-- ADD Vx, kk (R173): no flag. -/
def execAddImm (x : Nibble) (kk : Byte) (s : State) : Result := .next (s.setV x (s.getV x + kk))

/-- LD Vx, Vy (R174). -/
def execLdReg (x y : Nibble) (s : State) : Result := .next (s.setV x (s.getV y))

/-- OR Vx, Vy (R175): `VF` unchanged (D7). -/
def execOrReg (x y : Nibble) (s : State) : Result := .next (s.setV x (s.getV x ||| s.getV y))

/-- AND Vx, Vy (R176): `VF` unchanged (D7). -/
def execAndReg (x y : Nibble) (s : State) : Result := .next (s.setV x (s.getV x &&& s.getV y))

/-- XOR Vx, Vy (R177): `VF` unchanged (D7). -/
def execXorReg (x y : Nibble) (s : State) : Result := .next (s.setV x (s.getV x ^^^ s.getV y))

/-- ADD Vx, Vy (R178): `VF` is the carry. -/
def execAddReg (x y : Nibble) (s : State) : Result :=
  .next (s.setResultFlag x (s.getV x + s.getV y) (carryFlag (s.getV x) (s.getV y)))

/-- SUB Vx, Vy (R179): `VF` is 1 iff `V[x] > V[y]` before the subtraction. -/
def execSub (x y : Nibble) (s : State) : Result :=
  .next (s.setResultFlag x (s.getV x - s.getV y) (noBorrowFlag (s.getV x) (s.getV y)))

/-- SHR Vx, Vy (R181). -/
def execShr (x y : Nibble) (s : State) : Result :=
  .next (s.setResultFlag x (s.shiftSource x y >>> 1) (shrFlag (s.shiftSource x y)))

/-- SUBN Vx, Vy (R182): `VF` is 1 iff `V[y] > V[x]`. -/
def execSubn (x y : Nibble) (s : State) : Result :=
  .next (s.setResultFlag x (s.getV y - s.getV x) (noBorrowFlag (s.getV y) (s.getV x)))

/-- SHL Vx, Vy (R183). -/
def execShl (x y : Nibble) (s : State) : Result :=
  .next (s.setResultFlag x (s.shiftSource x y <<< 1) (shlFlag (s.shiftSource x y)))

/-- RND Vx, kk (R184): a fresh draw of the oracle, masked (log 3). -/
def execRnd (x : Nibble) (kk : Byte) (s : State) : Result := .next (s.nextDraw.setV x (s.randomByte &&& kk))

end Sys2Proof.Machine
end

