-- ==== Sys2Proof/Machine/Control.lean ====
section
/-! DEFINITION. Control transfer (40_control_flow.md). Each meaning runs after the fetch has advanced `PC` (R101). -/

namespace Sys2Proof.Machine

/-- RET (R140): `StackUnderflow` on an empty stack; else pop into `PC`. The entry is not cleared (R38). -/
def execRet (s : State) : Result :=
  if h : s.sp.val = 0 then .next (s.raise (.stackUnderflow s.instrAddr))
  else .next ((s.withStack s.stack ⟨s.sp.val - 1, by omega⟩).withPc (s.stack[s.sp.val - 1]'(by omega)))

/-- JP nnn (R141). -/
def execJp (nnn : Addr12) (s : State) : Result := .next (s.withPc (addrOf nnn))

/-- CALL nnn (R142): `StackOverflow` when 16 entries are in use; else push the next address and jump. -/
def execCall (nnn : Addr12) (s : State) : Result :=
  if h : s.sp.val < 16 then
    .next ((s.withStack (s.stack.set s.sp.val s.pc h) ⟨s.sp.val + 1, by omega⟩).withPc (addrOf nnn))
  else .next (s.raise (.stackOverflow s.instrAddr))

/-- SE Vx, kk (R143). -/
def execSeImm (x : Nibble) (kk : Byte) (s : State) : Result := .next (s.skipIf (decide (s.getV x = kk)))

/-- SNE Vx, kk (R144). -/
def execSneImm (x : Nibble) (kk : Byte) (s : State) : Result := .next (s.skipIf (decide (s.getV x ≠ kk)))

/-- SE Vx, Vy (R145). -/
def execSeReg (x y : Nibble) (s : State) : Result := .next (s.skipIf (decide (s.getV x = s.getV y)))

/-- SNE Vx, Vy (R146). -/
def execSneReg (x y : Nibble) (s : State) : Result := .next (s.skipIf (decide (s.getV x ≠ s.getV y)))

/-- JP V0, nnn (R147): `V0` in both modes (D39). -/
def execJpV0 (nnn : Addr12) (s : State) : Result := .next (s.withPc (s.wordV 0 + addrOf nnn))

end Sys2Proof.Machine
end

