-- ==== Sys2Proof/Machine/Display.lean ====
section
/-! DEFINITION. Display instructions (43_display.md). -/

namespace Sys2Proof.Machine

/-- CLS (R251): every pixel 0 at the current resolution; marked changed even if nothing was lit (C6). -/
def execCls (s : State) : Result := .next (s.redraw (Screen.blank s.width s.height))

/-- The draw of R252 once its bytes are read: position from the old registers, then the blit, then `VF` and `changed`. -/
def State.drawSprite (s : State) (x y : Nibble) (rows : List Byte) : State :=
  let x0 := (s.getV x).toNat % s.width
  let y0 := (s.getV y).toNat % s.height
  let p := Screen.blit s.width s.height x0 y0 0 rows s.fb
  (s.withScreen s.hires p.1 (s.changed || rows.any (fun b => decide (b ≠ 0)))).setVF (collisionFlag s.cfg p.2)

/-- DRW Vx, Vy, n (R252): all bytes are read, or the fatal condition is raised, before anything changes (D13). -/
def execDrw (x y n : Nibble) (s : State) : Result :=
  match s.readBlock s.iAddr n.toNat with
  | .error f => .next (s.raise f)
  | .ok rows => .next (s.drawSprite x y rows)

/-- SCD n (R253), SCHIP only. -/
def execScd (n : Nibble) (s : State) : Result :=
  .next (s.schipOnly (.scd n) fun t => t.redraw (t.fb.scrollDown t.width t.height n.toNat))

/-- SCR (R254), SCHIP only. -/
def execScr (s : State) : Result := .next (s.schipOnly .scr fun t => t.redraw (t.fb.scrollRight t.width))

/-- SCL (R255), SCHIP only. -/
def execScl (s : State) : Result := .next (s.schipOnly .scl fun t => t.redraw t.fb.scrollLeft)

/-- LOW (R256), SCHIP only: cleared even if the resolution was low already (D16). -/
def execLow (s : State) : Result := .next (s.schipOnly .low fun t => t.setResolution false)

/-- HIGH (R257), SCHIP only: cleared even if the resolution was high already (D16). -/
def execHigh (s : State) : Result := .next (s.schipOnly .high fun t => t.setResolution true)

end Sys2Proof.Machine
end

