-- ==== Sys2Proof/Machine/Index.lean ====
section
/-! DEFINITION. The index register and memory transfers (42_index_memory.md). No instruction here writes `VF` as a flag. -/

namespace Sys2Proof.Machine

/-- LD I, nnn (R210). -/
def execLdI (nnn : Addr12) (s : State) : Result := .next (s.withI (addrOf nnn))

/-- ADD I, Vx (R211): modulo 65536, no flag. -/
def execAddI (x : Nibble) (s : State) : Result := .next (s.withI (s.i + s.wordV x))

/-- LD F, Vx (R212). -/
def execLdF (x : Nibble) (s : State) : Result := .next (s.withI (smallGlyphAddr (s.getV x)))

/-- LD HF, Vx (R213): a digit above 9 is a reported no-op. -/
def execLdHF (x : Nibble) (s : State) : Result :=
  if (s.getV x).toNat > 9 then .next (s.report (.largeFontDigitOutOfRange (encode (.ldHF x)) (s.getV x)))
  else .next (s.withI (largeGlyphAddr s.cfg (s.getV x)))

/-- LD B, Vx (R214): the three decimal digits at `I`, `I + 1`, `I + 2`. -/
def execLdB (x : Nibble) (s : State) : Result :=
  match s.storeBlock s.iAddr (bcdDigits (s.getV x)) with
  | .ok t => .next t
  | .error t => .next t

/-- LD [I], Vx (R216). -/
def execStoreRegs (x : Nibble) (s : State) : Result :=
  match s.storeBlock s.iAddr (s.regsFrom 0 (regCount x)) with
  | .ok t => .next (t.advanceI x)
  | .error t => .next t

/-- LD Vx, [I] (R217). -/
def execLoadRegs (x : Nibble) (s : State) : Result :=
  match s.loadBlock s.iAddr (regCount x) with
  | .ok t => .next (t.advanceI x)
  | .error t => .next t

end Sys2Proof.Machine
end

