-- ==== Sys2Proof/Machine/System.lean ====
section
/-! DEFINITION. SCHIP exit and flag registers (45_schip_system.md), and the no-op that a word outside the opcode map is
(30_encoding.md R112). -/

namespace Sys2Proof.Machine

/-- EXIT (R320), SCHIP only. -/
def execExit (s : State) : Result := .next (s.schipOnly .exit fun t => t.withQuit true)

/-- LD R, Vx (R321), SCHIP only: `x` above 7 is a reported no-op (D18). -/
def execSaveRpl (x : Nibble) (s : State) : Result :=
  .next (s.schipOnly (.saveRpl x) fun t =>
    if x.toNat > 7 then t.report (.rplIndexOutOfRange (encode (.saveRpl x)) x) else t.saveRplFrom 0 (regCount x))

/-- LD Vx, R (R322), SCHIP only: `x` above 7 is a reported no-op (D18). -/
def execLoadRpl (x : Nibble) (s : State) : Result :=
  .next (s.schipOnly (.loadRpl x) fun t =>
    if x.toNat > 7 then t.report (.rplIndexOutOfRange (encode (.loadRpl x)) x)
    else t.setRegsFrom 0 (t.rplFrom 0 (regCount x)))

/-- The tick's answer to bytes that are no instruction (R112): the report, and nothing else. -/
def execReject (e : Reject) (s : State) : Result :=
  match e with
  | .unknownOpcode op => .next (s.report (.unknownOpcode op))
  | .truncated => .next s

end Sys2Proof.Machine
end

