-- ==== Sys2Proof/Machine/TimersKeys.lean ====
section
/-! DEFINITION. Timer and keypad instructions (44_timers_input.md). The timer step and the key-wait scan are the tick's
(Machine/Tick.lean). -/

namespace Sys2Proof.Machine

/-- SKP Vx (R290). -/
def execSkp (x : Nibble) (s : State) : Result :=
  match s.keyPressed (s.getV x) with
  | .error f => .next (s.raise f)
  | .ok b => .next (s.skipIf b)

/-- SKNP Vx (R291). -/
def execSknp (x : Nibble) (s : State) : Result :=
  match s.keyPressed (s.getV x) with
  | .error f => .next (s.raise f)
  | .ok b => .next (s.skipIf (!b))

/-- LD Vx, DT (R292). -/
def execLdVxDT (x : Nibble) (s : State) : Result := .next (s.setV x s.dt)

/-- LD DT, Vx (R293). -/
def execLdDTVx (x : Nibble) (s : State) : Result := .next (s.withTimers (s.getV x) s.st)

/-- LD ST, Vx (R294). -/
def execLdSTVx (x : Nibble) (s : State) : Result := .next (s.withTimers s.dt (s.getV x))

/-- LD Vx, K (R295): enters the key wait; `PC` and `V[x]` are not written (D37). -/
def execLdVxK (x : Nibble) (s : State) : Result := .next (s.withWait true x)

end Sys2Proof.Machine
end

