-- ==== Sys2Proof/Machine/Tick.lean ====
section
/-! DEFINITION. The tick (60_exceptions.md R340 to R344): the stop test, the key-wait scan, the fetch, the dispatch, the
timer step. `step` is this tick. -/

namespace Sys2Proof.Machine

/-- The core is stopped: a fatal condition is recorded, or EXIT has run (R341). -/
def State.stopped (s : State) : Bool := s.fault.isSome || s.quit

/-- The least `k` from `k0` on, of `n` keys, that the latch holds pressed (R342, D23). -/
def State.firstKeyFrom (s : State) : Nat → Nat → Option Nat
  | _, 0 => none
  | k, n + 1 => if (s.keys[k]?).getD false then some k else s.firstKeyFrom (k + 1) n

/-- The least pressed key (R342). -/
def State.firstKey (s : State) : Option Nat := s.firstKeyFrom 0 16

/-- The key-wait scan (R342). `none`: the wait goes on and the tick ends here. Otherwise the state to fetch from. -/
def State.scanKeys (s : State) : Option State :=
  if s.awaiting then
    match s.firstKey with
    | none => none
    | some k => some ((s.setV s.target (BitVec.ofNat 8 k)).withWait false s.target)
  else some s

/-- The fetch (R101): two bytes, big-endian, `PC` checked before `PC + 1` (R352); `PC + 1` does not wrap (D4). -/
def State.fetch (s : State) : Except Fault Word :=
  match s.memRead s.pc.toNat with
  | .error f => .error f
  | .ok hi =>
    match s.memRead (s.pc.toNat + 1) with
    | .error f => .error f
    | .ok lo => .ok (wordOfBytes hi lo)

/-- One timer's decrement, saturating at 0 (R344). -/
def timerDec (t : Byte) : Byte := if t.toNat > 0 then t - 1 else 0

/-- The timer step (R344). -/
def State.stepTimers (s : State) : State := s.withTimers (timerDec s.dt) (timerDec s.st)

/-- The end of a tick: the timer step, unless a fatal condition was raised (R340). -/
def State.endTick (s : State) : State := if s.fault.isSome then s else s.stepTimers

/-- The end of a tick, on what the instruction answered. -/
def finishTick (r : Result) : Result :=
  match r with
  | .next t => .next t.endTick
  | .fault f => .fault f
  | .refused f => .refused f

/-- Execute a fetched word (R110, R112), after `PC` has been advanced past it. -/
def execWord (op : Word) (s : State) : Result :=
  match decodeWord op with
  | .ok i => exec i s
  | .error e => execReject e s

/-- Fetch and execute one instruction, then step the timers (R343, R344). A fetch fault leaves `PC` (R353). -/
def State.fetchExecute (s : State) : Result :=
  match s.fetch with
  | .error f => .next (s.raise f)
  | .ok op => finishTick (execWord op s.advancePc)

/-- `tick()` (R340). -/
def tick (s : State) : Result :=
  if s.stopped then .next s
  else
    match s.scanKeys with
    | none => .next s
    | some t => t.fetchExecute

/-- The state with the two bytes of a word stored at `PC` and `PC + 1`, as the fetch reads them. -/
def State.placeWord (s : State) (op : Word) : State :=
  (s.writeByte s.pc.toNat (hiByte op)).writeByte (s.pc.toNat + 1) (loByte op)

end Sys2Proof.Machine
end

