-- ==== Sys2Proof/Machine/Step.lean ====
section
/-! DEFINITION. The machine's one step is the tick (60_exceptions.md R340). -/

namespace Sys2Proof.Machine

/-- One step: one call of `tick()`. -/
def step (s : State) : Host.Outcome State Fault Refusal := tick s

/-- `s` with the table's word `w` stored where the next fetch reads it (log 8). Memory alone changes. -/
def State.withFetchWord (s : State) (nbits w : Nat) : State := s.placeWord (tableWord nbits w)

end Sys2Proof.Machine
end

