-- ==== Sys2Proof/Machine/HostOps.lean ====
section
/-! DEFINITION. The host's operations, the block's whole interface (70_reset_and_hazards.md R404 to R412). Each is atomic
and happens between ticks (R411). -/

namespace Sys2Proof.Machine

/-- The host's moves; it has no other (R412). -/
inductive HostOp where
  /-- `reset()` (R410), and construction (R402) -/
  | reset
  /-- `load_program(bytes)` (R404) -/
  | loadProgram (bytes : List Byte)
  /-- `set_keys(k)` (R405) -/
  | setKeys (k : Vector Bool 16)
  /-- `tick()` (R406) -/
  | tick
  /-- `read_framebuffer()` (R407) -/
  | readFramebuffer
  /-- `read_sound_timer()` (R408) -/
  | readSoundTimer
  /-- `read_quit()` (R409) -/
  | readQuit
  deriving DecidableEq, Repr

/-- What the core gives back (R412). -/
inductive HostResult where
  /-- Nothing (reset, set_keys). -/
  | nothing
  /-- `ok` (tick, load_program). -/
  | ok
  /-- `failed(kind)` of a tick that raised a fatal condition (R340, R354). -/
  | failed (f : Fault)
  /-- `failed(RomTooLarge)` of load_program (R404). -/
  | romTooLarge
  /-- Dimensions, pixels, changed flag (R407). -/
  | frame (w h : Nat) (fb : Screen) (changed : Bool)
  /-- The sound timer (R408). -/
  | soundTimer (st : Byte)
  /-- The quit flag (R409). -/
  | quitFlag (quit : Bool)
  deriving DecidableEq, Repr

/-- `reset()` (R400, R410): every field of R30 at its reset value, the configuration unchanged. The events already
emitted and the draws already taken stay as they are (log 3, log 5). -/
def State.hostReset (s : State) : State := ((State.resetWith s.cfg).withDraws s.draws).withReports s.reports

/-- Where a program starts (R74, R403). -/
def programBase : Nat := 0x200

/-- The greatest image `load_program` takes (R10, R404, D29). -/
def romLimit (c : Config) : Nat := min c.maxRomSize (memSize - programBase)

/-- `load_program(bytes)` (R404, D30): the image is copied to 0x200, or nothing changes. -/
def State.loadProgram (s : State) (bytes : List Byte) : State × HostResult :=
  if bytes.length > romLimit s.cfg then (s, .romTooLarge) else (s.storeBytes programBase bytes, .ok)

/-- `read_framebuffer()` (R407, D34): the answer, then the changed flag is cleared. -/
def State.readFramebuffer (s : State) : State × HostResult :=
  (s.withScreen s.hires s.fb false, .frame s.width s.height s.fb s.changed)

/-- What `tick()` returns (R340, R354): `failed(kind)` when this tick raised the condition, else `ok`. -/
def tickResult (before after : State) : HostResult :=
  match before.fault, after.fault with
  | none, some f => .failed f
  | _, _ => .ok

/-- One host operation: the next state and what the host is given. -/
def State.host (op : HostOp) (s : State) : Host.Outcome (State × HostResult) Fault Refusal :=
  match op with
  | .reset => .next (s.hostReset, .nothing)
  | .loadProgram bytes => .next (s.loadProgram bytes)
  | .setKeys k => .next (s.withKeys k, .nothing)
  | .tick =>
    match Machine.tick s with
    | .next t => .next (t, tickResult s t)
    | .fault f => .fault f
    | .refused r => .refused r
  | .readFramebuffer => .next s.readFramebuffer
  | .readSoundTimer => .next (s, .soundTimer s.st)
  | .readQuit => .next (s, .quitFlag s.quit)

end Sys2Proof.Machine
end

