-- ==== Sys2Proof/Safety.lean ====
section
/-! DEFINITION. The terms claims are stated in: the invariant every step keeps, safe states, and the frames. -/

namespace Sys2Proof.Machine

/-- The invariant of the machine: memory is in its canonical form (20_memory.md R70), and the framebuffer has the
dimensions of the current resolution (10_state.md R42). -/
def State.wf (s : State) : Bool :=
  Memory.wf (resetByte s.cfg) s.mem && Screen.wf s.width s.height s.fb

/-- A safe state: no fatal condition is recorded (60_exceptions.md R350). -/
def State.safe (s : State) : Prop := s.fault = none

/-- Every byte of memory reads in `t` as it read in `s`. -/
def SameMemory (s t : State) : Prop := ∀ a, t.readByte a = s.readByte a

/-- Every byte of memory but the `n` bytes from `a` on reads in `t` as it read in `s`. -/
def SameMemoryOutside (s t : State) (a n : Nat) : Prop := ∀ b, b < a ∨ a + n ≤ b → t.readByte b = s.readByte b

/-- `t` is `s` but for `PC`, and reads the same memory. -/
def OnlyPc (s t : State) : Prop := t = { s with pc := t.pc } ∧ SameMemory s t

/-- `t` is `s` but for general registers, and reads the same memory. -/
def OnlyV (s t : State) : Prop := t = { s with v := t.v } ∧ SameMemory s t

/-- `t` is `s` but for `I`, and reads the same memory. -/
def OnlyI (s t : State) : Prop := t = { s with i := t.i } ∧ SameMemory s t

/-- `t` is `s` but for the resolution, the pixels and the changed flag, and reads the same memory. -/
def OnlyScreen (s t : State) : Prop :=
  t = { s with hires := t.hires, fb := t.fb, changed := t.changed } ∧ SameMemory s t

/-- `t` is `s` but for one more event at the end of the list of events (60_exceptions.md R356). -/
def OnlyReport (s t : State) (r : Report) : Prop :=
  t = { s with reports := s.reports ++ [r] } ∧ SameMemory s t

/-- Every general register but those listed has in `t` the value it had in `s`. -/
def SameVOutside (s t : State) (xs : List Nibble) : Prop := ∀ r, r ∉ xs → t.getV r = s.getV r

/-! ### Which word is unknown (30_encoding.md R112), in that rule's own list -/

/-- The unknown words of R112. -/
def IsUnknown (w : Word) : Prop :=
  (fieldA w = 0x0 ∧ ¬(w = 0x00E0 ∨ w = 0x00EE ∨ (0x00C0 ≤ w.toNat ∧ w.toNat ≤ 0x00CF) ∨
    (0x00FB ≤ w.toNat ∧ w.toNat ≤ 0x00FF))) ∨
  ((fieldA w = 0x5 ∨ fieldA w = 0x9) ∧ fieldN w ≠ 0x0) ∨
  (fieldA w = 0x8 ∧ fieldN w ∈ ([0x8, 0x9, 0xA, 0xB, 0xC, 0xD, 0xF] : List Nibble)) ∨
  (fieldA w = 0xE ∧ fieldKK w ∉ ([0x9E, 0xA1] : List Byte)) ∨
  (fieldA w = 0xF ∧
    fieldKK w ∉ ([0x07, 0x0A, 0x15, 0x18, 0x1E, 0x29, 0x30, 0x33, 0x55, 0x65, 0x75, 0x85] : List Byte))

/-! ### What a draw covers (43_display.md R252), pixel by pixel -/

/-- Sprite bit of row `r`, column `c`: bit `7 - c` of the byte at `I + r`. -/
def spriteBit (s : State) (r c : Nat) : Bool := (s.readByte (s.iAddr + r)).getLsbD (7 - c)

/-- The screen column of sprite column `c`. -/
def spriteCol (s : State) (x : Nibble) (c : Nat) : Nat := ((s.getV x).toNat % s.width + c) % s.width

/-- The screen row of sprite row `r`. -/
def spriteRow (s : State) (y : Nibble) (r : Nat) : Nat := ((s.getV y).toNat % s.height + r) % s.height

/-- Some set sprite bit falls on pixel (px, py). -/
def spriteCovers (s : State) (x y n : Nibble) (px py : Nat) : Bool :=
  (List.range n.toNat).any fun r =>
    (List.range 8).any fun c => spriteBit s r c && decide (spriteCol s x c = px ∧ spriteRow s y r = py)

/-- Sprite row `r` erases a pixel: a set bit of it falls on a pixel that was 1. -/
def rowCollides (s : State) (x y : Nibble) (r : Nat) : Bool :=
  (List.range 8).any fun c => spriteBit s r c && s.pixel (spriteCol s x c) (spriteRow s y r)

/-- The number of sprite rows that erase a pixel (D14). -/
def collidingRows (s : State) (x y n : Nibble) : Nat := ((List.range n.toNat).filter (rowCollides s x y)).length

/-! ### Which instructions may write what, as the rules of 10_state.md list them -/

/-- The eight SCHIP-only rows (30_encoding.md R113, 60_exceptions.md R357). -/
def isSchipOnly : Instr → Bool
  | .scd _ | .scr | .scl | .exit | .low | .high | .saveRpl _ | .loadRpl _ => true
  | _ => false

/-- The instructions that may write memory (20_memory.md R71). -/
def mayWriteMemory : Instr → Bool
  | .ldB _ | .storeRegs _ => true
  | _ => false

/-- The instructions that may write `I`, given `schip_mode` (R35). -/
def mayWriteI (schip : Bool) : Instr → Bool
  | .ldI _ | .addI _ | .ldF _ | .ldHF _ => true
  | .storeRegs _ | .loadRegs _ => !schip
  | _ => false

/-- The instructions that may write `PC` beyond the fetch's advance (R33). -/
def mayWritePc : Instr → Bool
  | .ret | .jp _ | .call _ | .jpV0 _ | .seImm _ _ | .sneImm _ _ | .seReg _ _ | .sneReg _ _ | .skp _ | .sknp _ => true
  | _ => false

/-- The instructions that may write the call stack (R37). -/
def mayWriteStack : Instr → Bool
  | .ret | .call _ => true
  | _ => false

/-- The instructions that may write general register `r` (R32, R36). -/
def mayWriteV (r : Nibble) : Instr → Bool
  | .ldImm x _ | .addImm x _ | .ldReg x _ | .orReg x _ | .andReg x _ | .xorReg x _ | .rnd x _ | .ldVxDT x => r == x
  | .addReg x _ | .sub x _ | .shr x _ | .subn x _ | .shl x _ => r == x || r == 0xF
  | .drw _ _ _ => r == 0xF
  | .loadRegs x | .loadRpl x => decide (r.toNat ≤ x.toNat)
  | _ => false

/-- The instructions that may write a pixel or the changed flag (R43, 60_exceptions.md R376). -/
def mayWriteScreen : Instr → Bool
  | .cls | .drw _ _ _ | .scd _ | .scr | .scl | .low | .high => true
  | _ => false

/-- The instructions that may write the resolution (R42). -/
def mayWriteHires : Instr → Bool
  | .low | .high => true
  | _ => false

/-! ### The reset values (70_reset_and_hazards.md R400, R401) -/

/-- Every field of 10_state.md R30 but memory is at its reset value; memory is `MemoryAtReset`. -/
structure AtReset (t : State) : Prop where
  v : ∀ x, t.getV x = 0
  i : t.i = 0
  pc : t.pc = 0x200
  stack : ∀ j : Fin 16, t.stack[j] = 0
  sp : t.sp = 0
  dt : t.dt = 0
  st : t.st = 0
  keys : ∀ k : Fin 16, t.keys[k] = false
  awaiting : t.awaiting = false
  target : t.target = 0
  hires : t.hires = false
  fbSize : Screen.wf 64 32 t.fb = true
  fb : ∀ x y, t.pixel x y = false
  changed : t.changed = false
  rpl : ∀ k : Fin 8, t.rpl[k] = 0
  quit : t.quit = false
  fault : t.fault = none

/-- Memory after reset under the configuration `c` (R401): the two fonts at their addresses, every other byte 0. -/
structure MemoryAtReset (c : Config) (t : State) : Prop where
  fontSmall : ∀ k : Fin 80, t.readByte (0x050 + k.val) = c.fontSmall[k]
  fontLarge : ∀ k : Fin 100, t.readByte (c.largeFontBase.toNat + k.val) = c.fontLarge[k]
  other : ∀ a, ¬(0x050 ≤ a ∧ a < 0x0A0) → ¬(c.largeFontBase.toNat ≤ a ∧ a < c.largeFontBase.toNat + 100) →
    t.readByte a = 0

end Sys2Proof.Machine
end

