-- ==== Sys2Proof/Certificates/Slice0/Obligations.lean ====
section
/-! DEFINITION. The statements for the provers. Each docstring names the rules of spec/ it formalises. `exec` runs after
the fetch has advanced `PC` (R101): in a statement about `exec`, `s.pc` is the address after the instruction. -/

open Sys2Proof Sys2Proof.Machine

/-! ### Encoding -/

/-- R100, R103, R111: the decoder gives back every encoded instruction, and from its two bytes in memory order (R78). -/
def Obligations.DecodeOfEncode : Prop :=
  ∀ (i : Instr) (rest : List Byte), decodeWord (encode i) = .ok i ∧ decode (encodeBytes i ++ rest) = .ok (i, rest)

/-- R110: ties cannot occur: a word that decodes is the encoding of what it decodes to. -/
def Obligations.EncodeOfDecode : Prop :=
  ∀ (w : Word) (i : Instr), decodeWord w = .ok i → encode i = w

/-- R112: exactly the listed words are unknown, and a running core's tick on one reports it, advances `PC` past it, steps
the timers and does nothing else. -/
def Obligations.UnknownWordIsReportedNoOp : Prop :=
  (∀ w : Word, (IsUnknown w → decodeWord w = .error (.unknownOpcode w)) ∧ (¬IsUnknown w → ∃ i, decodeWord w = .ok i)) ∧
  ∀ (s : State) (w : Word), s.stopped = false → s.awaiting = false → s.fetch = .ok w → IsUnknown w →
    step s = .next { s with pc := s.pc + 2, dt := timerDec s.dt, st := timerDec s.st,
                            reports := s.reports ++ [.unknownOpcode w] }

/-- R111: words written out from the opcode map decode to their rows. -/
def Obligations.WordsOfTheOpcodeMap : Prop :=
  decodeWord 0x00E0 = .ok .cls ∧ decodeWord 0x00EE = .ok .ret ∧ decodeWord 0x1234 = .ok (.jp 0x234) ∧
  decodeWord 0x3A5C = .ok (.seImm 0xA 0x5C) ∧ decodeWord 0x8127 = .ok (.subn 1 2) ∧ decodeWord 0x812E = .ok (.shl 1 2) ∧
  decodeWord 0x9120 = .ok (.sneReg 1 2) ∧ decodeWord 0xA22A = .ok (.ldI 0x22A) ∧ decodeWord 0xD125 = .ok (.drw 1 2 5) ∧
  decodeWord 0xE39E = .ok (.skp 3) ∧ decodeWord 0xF533 = .ok (.ldB 5) ∧ decodeWord 0x00C7 = .ok (.scd 7) ∧
  decodeWord 0x00FD = .ok .exit ∧ decodeWord 0xF785 = .ok (.loadRpl 7)

/-- R102: the operand views of a word. -/
def Obligations.FieldsOfAWord : Prop :=
  ∀ w : Word, (fieldA w).toNat = w.toNat / 4096 ∧ (fieldX w).toNat = w.toNat / 256 % 16 ∧
    (fieldY w).toNat = w.toNat / 16 % 16 ∧ (fieldN w).toNat = w.toNat % 16 ∧
    (fieldKK w).toNat = (fieldY w).toNat * 16 + (fieldN w).toNat ∧
    (fieldNNN w).toNat = (fieldX w).toNat * 256 + (fieldY w).toNat * 16 + (fieldN w).toNat

/-! ### The tick -/

/-- R101, R340, R343, R344: a tick of a core that is neither stopped nor waiting runs the instruction its two bytes at
`PC` decode to, with `PC` advanced by 2; then the timers step (instruction first: the spec's decision D25, log 7), unless the instruction raised a fatal
condition. -/
def Obligations.StepRunsDecodedInstruction : Prop :=
  ∀ (s t : State) (i : Instr), s.stopped = false → s.awaiting = false → s.pc.toNat + 1 < 4096 →
    decode [s.readByte s.pc.toNat, s.readByte (s.pc.toNat + 1)] = .ok (i, []) →
    exec i { s with pc := s.pc + 2 } = .next t →
    step s = .next (if t.fault = none then { t with dt := timerDec t.dt, st := timerDec t.st } else t)

/-- R78, R82, R84: a word stored at `PC`, high byte first, is the word the next fetch reads. -/
def Obligations.FetchReadsStoredWord : Prop :=
  ∀ (s : State) (w : Nat), s.wf = true → s.pc.toNat + 1 < 4096 → w < 65536 →
    (s.withFetchWord 16 w).fetch = .ok (BitVec.ofNat 16 w)

/-- R101, R344, R353: a fetch that reaches address 4096 records the first address out of range, leaves `PC`, and the
timers do not step (no wrap of `PC + 1`: the spec's decision D4, log 7). -/
def Obligations.FetchOutOfRangeFaults : Prop :=
  ∀ s : State, s.stopped = false → s.awaiting = false → 4096 ≤ s.pc.toNat + 1 →
    ∃ t, step s = .next t ∧
      t.fault = some (.memoryOutOfRange (if s.pc.toNat < 4096 then s.pc.toNat + 1 else s.pc.toNat)) ∧
      t.pc = s.pc ∧ t.dt = s.dt ∧ t.st = s.st

/-- R341: a tick in a stopped core changes no state, however often it is called (the spec's decisions D19, D26; log 7). -/
def Obligations.StoppedCoreStaysAsItIs : Prop :=
  ∀ (s : State) (k : Nat), s.fault ≠ none ∨ s.quit = true → step s = .next s ∧ Host.Core.run core k s = .next s

/-- R342: while awaiting, a tick that finds no key pressed changes nothing; else the least pressed key goes to the target
register, the wait ends, and the tick goes on from there (the spec's decisions D23, D24; log 7). -/
def Obligations.KeyWaitScan : Prop :=
  ∀ s : State, s.stopped = false → s.awaiting = true →
    ((∀ k : Fin 16, s.keys[k] = false) → step s = .next s) ∧
    ∀ k : Fin 16, s.keys[k] = true → (∀ j : Fin 16, j < k → s.keys[j] = false) →
      step s = step { s.setV s.target (BitVec.ofNat 8 k.val) with awaiting := false }

/-- R114, R356, R361: no instruction and no tick stops without a next state. -/
def Obligations.EveryStepHasANextState : Prop :=
  (∀ (i : Instr) (s : State), ∃ t, exec i s = .next t) ∧ ∀ s : State, ∃ t, step s = .next t

/-- R39, R344: an instruction writes a timer only by an explicit set, and the timer step takes one off, down to 0. -/
def Obligations.TimersWrittenOnlyBySetAndStep : Prop :=
  (∀ (i : Instr) (s t : State), exec i s = .next t → t.fault = s.fault →
    ((∀ x, i ≠ .ldDTVx x) → t.dt = s.dt) ∧ ((∀ x, i ≠ .ldSTVx x) → t.st = s.st)) ∧
  ∀ b : Byte, (timerDec b).toNat = b.toNat - 1

/-! ### Invariants and whole-machine rules

The statements on who writes what are about an instruction that raises no fatal condition (`t.fault = s.fault`): R350 and
R81 leave the other state after a raise unspecified. -/

/-- R400, R401, R42: the state after reset, under any configuration, meets the invariant. -/
def Obligations.ResetMeetsInvariant : Prop :=
  State.reset.wf = true ∧ ∀ c : Config, (State.resetWith c).wf = true

/-- R42, R70: every tick from a state that meets the invariant leaves one that does: memory in canonical form, the
framebuffer at the dimensions of the current resolution. -/
def Obligations.StepKeepsInvariant : Prop :=
  ∀ s t : State, s.wf = true → step s = .next t → t.wf = true

/-- R404 to R412: every host operation keeps the invariant. -/
def Obligations.HostMoveKeepsInvariant : Prop :=
  ∀ (op : HostOp) (s t : State) (r : HostResult), s.wf = true → s.host op = .next (t, r) → t.wf = true

/-- R9, R40: no tick changes the configuration or the key latch. -/
def Obligations.TickKeepsConfigurationAndKeys : Prop :=
  ∀ s t : State, step s = .next t → t.cfg = s.cfg ∧ t.keys = s.keys

/-- R71: only LD B and LD [I] write memory. -/
def Obligations.OnlyStoresWriteMemory : Prop :=
  ∀ (i : Instr) (s t : State), exec i s = .next t → t.fault = s.fault → mayWriteMemory i = false → t.mem = s.mem ∧ SameMemory s t

/-- R35: only the listed instructions write `I`, the block transfers only in base mode. -/
def Obligations.OnlyListedInstructionsWriteIndex : Prop :=
  ∀ (i : Instr) (s t : State), exec i s = .next t → t.fault = s.fault → mayWriteI s.cfg.schipMode i = false → t.i = s.i

/-- R33, R37: only the listed instructions write `PC`, and only CALL and RET the call stack. -/
def Obligations.OnlyControlTransfersWritePcAndStack : Prop :=
  ∀ (i : Instr) (s t : State), exec i s = .next t → t.fault = s.fault →
    (mayWritePc i = false → t.pc = s.pc) ∧ (mayWriteStack i = false → t.stack = s.stack ∧ t.sp = s.sp)

/-- R32, R36: an instruction writes no general register but those the rules list for it. -/
def Obligations.OnlyListedInstructionsWriteRegisters : Prop :=
  ∀ (i : Instr) (s t : State) (r : Nibble), exec i s = .next t → t.fault = s.fault → mayWriteV r i = false → t.getV r = s.getV r

/-- R42, R43, R376: only LOW and HIGH write the resolution, only display instructions write pixels or the changed flag,
and no instruction clears that flag. -/
def Obligations.OnlyDisplayInstructionsWriteScreen : Prop :=
  ∀ (i : Instr) (s t : State), exec i s = .next t → t.fault = s.fault →
    (mayWriteHires i = false → t.hires = s.hires) ∧
    (mayWriteScreen i = false → t.fb = s.fb ∧ t.changed = s.changed) ∧
    (s.changed = true → t.changed = true)

/-- R41, R44, R45: only LD Vx,K writes the key-wait state, only LD R,Vx the RPL bytes, only EXIT the quit flag. -/
def Obligations.OnlyTheirInstructionsWriteWaitRplQuit : Prop :=
  ∀ (i : Instr) (s t : State), exec i s = .next t → t.fault = s.fault →
    ((∀ x, i ≠ .ldVxK x) → t.awaiting = s.awaiting ∧ t.target = s.target) ∧
    ((∀ x, i ≠ .saveRpl x) → t.rpl = s.rpl) ∧
    (i ≠ .exit → t.quit = s.quit)

/-- R352, R356, R357: a tick emits at most one report, never takes one back, and none when it raises a fatal condition. -/
def Obligations.AtMostOneEventPerTick : Prop :=
  ∀ s t : State, step s = .next t →
    ∃ l : List Report, t.reports = s.reports ++ l ∧ l.length ≤ 1 ∧ (t.fault ≠ s.fault → l = [])

/-! ### Reset and the host's operations -/

/-- R400, R401, R402, R410: the host's reset, from any state, and construction, under any configuration, leave every
field at its reset value, memory (under an admitted configuration) and the configuration included. Zero for the fields
the source does not name, and construction like reset, are the spec's decision D33 (log 7); the configuration of
`State.reset` is the model's choice (log 2). -/
def Obligations.ResetLeavesResetValues : Prop :=
  (∀ s : State, ∃ t, s.host .reset = .next (t, .nothing) ∧ AtReset t ∧ t.cfg = s.cfg ∧
    (s.cfg.wellFormed = true → MemoryAtReset s.cfg t)) ∧
  (∀ c : Config, AtReset (State.resetWith c) ∧ (State.resetWith c).cfg = c ∧
    (c.wellFormed = true → MemoryAtReset c (State.resetWith c))) ∧
  AtReset State.reset ∧ MemoryAtReset State.reset.cfg State.reset

/-- R401: memory after the host's reset, for every admitted configuration. -/
def Obligations.ResetMemoryHoldsFonts : Prop :=
  ∀ s t : State, s.cfg.wellFormed = true → s.host .reset = .next (t, .nothing) → MemoryAtReset s.cfg t

/-- R404: an image over the limit fails and changes nothing; any other is copied to 0x200, and nothing else changes (the
spec's decisions D29, D30; log 7). -/
def Obligations.LoadProgramCopiesOrFails : Prop :=
  ∀ (s : State) (bytes : List Byte), s.wf = true →
    (bytes.length > min s.cfg.maxRomSize 3584 → s.host (.loadProgram bytes) = .next (s, .romTooLarge)) ∧
    (bytes.length ≤ min s.cfg.maxRomSize 3584 →
      ∃ t, s.host (.loadProgram bytes) = .next (t, .ok) ∧ t = { s with mem := t.mem } ∧
        (∀ k, k < bytes.length → some (t.readByte (0x200 + k)) = bytes[k]?) ∧
        SameMemoryOutside s t 0x200 bytes.length)

/-- R405, R407, R408, R409: set_keys and the three read operations; that the read clears the changed flag after answering
is the spec's decision D34 (log 7). -/
def Obligations.HostReadsAndKeys : Prop :=
  ∀ (s : State) (k : Vector Bool 16),
    s.host (.setKeys k) = .next ({ s with keys := k }, .nothing) ∧
    s.host .readFramebuffer = .next ({ s with changed := false },
      .frame (if s.hires then 128 else 64) (if s.hires then 64 else 32) s.fb s.changed) ∧
    s.host .readSoundTimer = .next (s, .soundTimer s.st) ∧
    s.host .readQuit = .next (s, .quitFlag s.quit)

/-- R340, R354, R406: tick() is the step; it returns failed(kind) exactly when this tick raised the condition. -/
def Obligations.TickReturnsFailedWhenRaised : Prop :=
  ∀ s t : State, step s = .next t →
    ∃ r, s.host .tick = .next (t, r) ∧ (∀ f, s.fault = none → t.fault = some f → r = .failed f) ∧
      (s.fault ≠ none ∨ t.fault = none → r = .ok)

/-! ### Control transfer -/

/-- R140; that the popped entry is not cleared is the spec's decision D32 (log 7). -/
def Obligations.RetPopsOrUnderflows : Prop :=
  Encodes 0x00EE .ret ∧ ∀ s : State,
    (s.sp.val = 0 → ∃ t, exec .ret s = .next t ∧ t.fault = some (.stackUnderflow (s.pc - 2))) ∧
    (s.sp.val ≠ 0 → ∃ t, exec .ret s = .next t ∧ t = { s with sp := t.sp, pc := t.pc } ∧ SameMemory s t ∧
      t.sp.val + 1 = s.sp.val ∧ some t.pc = s.stack[t.sp.val]?)

/-- R141 -/
def Obligations.JumpSetsPc : Prop :=
  ∀ (nnn : Addr12) (s : State), Encodes (wordADDR 0x1 nnn) (.jp nnn) ∧
    ∃ t, exec (.jp nnn) s = .next t ∧ OnlyPc s t ∧ t.pc.toNat = nnn.toNat

/-- R147; that the register is `V0` in both modes is the spec's decision D39 (log 7). -/
def Obligations.IndexedJumpAddsV0 : Prop :=
  ∀ (nnn : Addr12) (s : State), Encodes (wordADDR 0xB nnn) (.jpV0 nnn) ∧
    ∃ t, exec (.jpV0 nnn) s = .next t ∧ OnlyPc s t ∧ t.pc.toNat = (s.getV 0).toNat + nnn.toNat

/-- R142 -/
def Obligations.CallPushesOrOverflows : Prop :=
  ∀ (nnn : Addr12) (s : State), Encodes (wordADDR 0x2 nnn) (.call nnn) ∧
    (s.sp.val = 16 → ∃ t, exec (.call nnn) s = .next t ∧ t.fault = some (.stackOverflow (s.pc - 2))) ∧
    (s.sp.val < 16 → ∃ t, exec (.call nnn) s = .next t ∧
      t = { s with stack := t.stack, sp := t.sp, pc := t.pc } ∧ SameMemory s t ∧
      t.sp.val = s.sp.val + 1 ∧ t.pc.toNat = nnn.toNat ∧ t.stack[s.sp.val]? = some s.pc ∧
      ∀ j, j ≠ s.sp.val → t.stack[j]? = s.stack[j]?)

/-- R140, R142, 95 E6: a RET that finds the stack as a CALL left it goes back to the address after that CALL. -/
def Obligations.RetUndoesCall : Prop :=
  ∀ (nnn : Addr12) (s u w : State), s.sp.val < 16 → exec (.call nnn) s = .next u → w.stack = u.stack → w.sp = u.sp →
    ∃ t, exec .ret w = .next t ∧ t.pc = s.pc ∧ t.sp = s.sp

/-- R143, R144, R145, R146 -/
def Obligations.SkipsCompareAndSkip : Prop :=
  ∀ (x y : Nibble) (kk : Byte) (s : State),
    (Encodes (wordXKK 0x3 x kk) (.seImm x kk) ∧ ∃ t, exec (.seImm x kk) s = .next t ∧ OnlyPc s t ∧
      t.pc = if s.getV x = kk then s.pc + 2 else s.pc) ∧
    (Encodes (wordXKK 0x4 x kk) (.sneImm x kk) ∧ ∃ t, exec (.sneImm x kk) s = .next t ∧ OnlyPc s t ∧
      t.pc = if s.getV x = kk then s.pc else s.pc + 2) ∧
    (Encodes (wordXYN 0x5 x y 0x0) (.seReg x y) ∧ ∃ t, exec (.seReg x y) s = .next t ∧ OnlyPc s t ∧
      t.pc = if s.getV x = s.getV y then s.pc + 2 else s.pc) ∧
    (Encodes (wordXYN 0x9 x y 0x0) (.sneReg x y) ∧ ∃ t, exec (.sneReg x y) s = .next t ∧ OnlyPc s t ∧
      t.pc = if s.getV x = s.getV y then s.pc else s.pc + 2)

/-! ### Register loads and arithmetic -/

/-- R172, R173 -/
def Obligations.LoadAndAddImmediate : Prop :=
  ∀ (x : Nibble) (kk : Byte) (s : State),
    (Encodes (wordXKK 0x6 x kk) (.ldImm x kk) ∧ ∃ t, exec (.ldImm x kk) s = .next t ∧ OnlyV s t ∧
      SameVOutside s t [x] ∧ t.getV x = kk) ∧
    (Encodes (wordXKK 0x7 x kk) (.addImm x kk) ∧ ∃ t, exec (.addImm x kk) s = .next t ∧ OnlyV s t ∧
      SameVOutside s t [x] ∧ (t.getV x).toNat = ((s.getV x).toNat + kk.toNat) % 256)

/-- R174, R175, R176, R177: the move, and the logic bit by bit; `VF` is unchanged unless it is the destination. The low
nibbles of the words are the spec's decision D6, and `VF` left alone its decision D7 (log 7). -/
def Obligations.MoveAndLogicAreBitwise : Prop :=
  ∀ (x y : Nibble) (s : State),
    (Encodes (wordXYN 0x8 x y 0x0) (.ldReg x y) ∧ ∃ t, exec (.ldReg x y) s = .next t ∧ OnlyV s t ∧
      SameVOutside s t [x] ∧ t.getV x = s.getV y) ∧
    (Encodes (wordXYN 0x8 x y 0x1) (.orReg x y) ∧ ∃ t, exec (.orReg x y) s = .next t ∧ OnlyV s t ∧
      SameVOutside s t [x] ∧ ∀ k, (t.getV x).getLsbD k = ((s.getV x).getLsbD k || (s.getV y).getLsbD k)) ∧
    (Encodes (wordXYN 0x8 x y 0x2) (.andReg x y) ∧ ∃ t, exec (.andReg x y) s = .next t ∧ OnlyV s t ∧
      SameVOutside s t [x] ∧ ∀ k, (t.getV x).getLsbD k = ((s.getV x).getLsbD k && (s.getV y).getLsbD k)) ∧
    (Encodes (wordXYN 0x8 x y 0x3) (.xorReg x y) ∧ ∃ t, exec (.xorReg x y) s = .next t ∧ OnlyV s t ∧
      SameVOutside s t [x] ∧ ∀ k, (t.getV x).getLsbD k = ((s.getV x).getLsbD k ^^ (s.getV y).getLsbD k))

/-- R178; that the flag stands when `x = F` is the spec's decision D9 (R171, log 7). -/
def Obligations.AddRegisterSetsCarry : Prop :=
  ∀ (x y : Nibble) (s : State), Encodes (wordXYN 0x8 x y 0x4) (.addReg x y) ∧
    ∃ t, exec (.addReg x y) s = .next t ∧ OnlyV s t ∧ SameVOutside s t [x, 0xF] ∧
      (x ≠ 0xF → (t.getV x).toNat = ((s.getV x).toNat + (s.getV y).toNat) % 256) ∧
      t.getVF = if (s.getV x).toNat + (s.getV y).toNat > 255 then 1 else 0

/-- R179, R182; the low nibbles of the words, SUBN's flag rule and the flag standing when `x = F` are the spec's decisions
D6, D8 and D9 (log 7). -/
def Obligations.SubtractsSetStrictNoBorrow : Prop :=
  ∀ (x y : Nibble) (s : State),
    (Encodes (wordXYN 0x8 x y 0x5) (.sub x y) ∧ ∃ t, exec (.sub x y) s = .next t ∧ OnlyV s t ∧
      SameVOutside s t [x, 0xF] ∧
      (x ≠ 0xF → (t.getV x).toNat = ((s.getV x).toNat + 256 - (s.getV y).toNat) % 256) ∧
      t.getVF = if (s.getV x).toNat > (s.getV y).toNat then 1 else 0) ∧
    (Encodes (wordXYN 0x8 x y 0x7) (.subn x y) ∧ ∃ t, exec (.subn x y) s = .next t ∧ OnlyV s t ∧
      SameVOutside s t [x, 0xF] ∧
      (x ≠ 0xF → (t.getV x).toNat = ((s.getV y).toNat + 256 - (s.getV x).toNat) % 256) ∧
      t.getVF = if (s.getV y).toNat > (s.getV x).toNat then 1 else 0)

/-- R180, R181, R183: `src` is `V[x]` in SCHIP mode and `V[y]` in base mode. The low nibble of SHL and the flag standing
when `x = F` are the spec's decisions D6 and D9 (log 7). -/
def Obligations.ShiftsFollowTheMode : Prop :=
  ∀ (x y : Nibble) (s : State) (src : Byte), src = (if s.cfg.schipMode = true then s.getV x else s.getV y) →
    (Encodes (wordXYN 0x8 x y 0x6) (.shr x y) ∧ ∃ t, exec (.shr x y) s = .next t ∧ OnlyV s t ∧
      SameVOutside s t [x, 0xF] ∧ (x ≠ 0xF → (t.getV x).toNat = src.toNat / 2) ∧ t.getVF.toNat = src.toNat % 2) ∧
    (Encodes (wordXYN 0x8 x y 0xE) (.shl x y) ∧ ∃ t, exec (.shl x y) s = .next t ∧ OnlyV s t ∧
      SameVOutside s t [x, 0xF] ∧ (x ≠ 0xF → (t.getV x).toNat = src.toNat * 2 % 256) ∧
      t.getVF.toNat = src.toNat / 128)

/-- R13, R184: the next draw of the oracle, whatever byte it is, masked; the draw is used up. The count of draws is the
model's own (log 3). -/
def Obligations.RandomByteIsMaskedDraw : Prop :=
  ∀ (x : Nibble) (kk : Byte) (s : State), Encodes (wordXKK 0xC x kk) (.rnd x kk) ∧
    ∃ t, exec (.rnd x kk) s = .next t ∧ t = { s with v := t.v, draws := s.draws + 1 } ∧ SameMemory s t ∧
      SameVOutside s t [x] ∧ (∀ k, (t.getV x).getLsbD k = ((Config.randomByte s.draws).getLsbD k && kk.getLsbD k)) ∧
      (kk = 0 → t.getV x = 0)

/-! ### Index register and memory -/

/-- R210, R211 -/
def Obligations.IndexLoads : Prop :=
  ∀ (nnn : Addr12) (x : Nibble) (s : State),
    (Encodes (wordADDR 0xA nnn) (.ldI nnn) ∧
      ∃ t, exec (.ldI nnn) s = .next t ∧ OnlyI s t ∧ t.i.toNat = nnn.toNat) ∧
    (Encodes (wordXKK 0xF x 0x1E) (.addI x) ∧
      ∃ t, exec (.addI x) s = .next t ∧ OnlyI s t ∧ t.i.toNat = (s.i.toNat + (s.getV x).toNat) % 65536)

/-- R212, R213; no masking of `V[x]` in the small font, and the digit range of the large one, are the spec's decisions
D21 and D22 (log 7). -/
def Obligations.GlyphAddressesOrReport : Prop :=
  ∀ (x : Nibble) (s : State),
    (Encodes (wordXKK 0xF x 0x29) (.ldF x) ∧
      ∃ t, exec (.ldF x) s = .next t ∧ OnlyI s t ∧ t.i.toNat = 0x050 + 5 * (s.getV x).toNat) ∧
    Encodes (wordXKK 0xF x 0x30) (.ldHF x) ∧
    ((s.getV x).toNat ≤ 9 → ∃ t, exec (.ldHF x) s = .next t ∧ OnlyI s t ∧
      t.i.toNat = (s.cfg.largeFontBase.toNat + 10 * (s.getV x).toNat) % 65536) ∧
    (9 < (s.getV x).toNat → ∃ t, exec (.ldHF x) s = .next t ∧
      OnlyReport s t (.largeFontDigitOutOfRange (wordXKK 0xF x 0x30) (s.getV x)))

/-- R214: the digits go to `I`, `I + 1`, `I + 2`, and no other byte changes; the fault is
raised at the first address out of range. -/
def Obligations.BcdDigitsStored : Prop :=
  ∀ (x : Nibble) (s : State), s.wf = true → Encodes (wordXKK 0xF x 0x33) (.ldB x) ∧
    (s.iAddr + 2 < 4096 → ∃ t, exec (.ldB x) s = .next t ∧ t = { s with mem := t.mem } ∧
      (t.readByte s.iAddr).toNat = (s.getV x).toNat / 100 ∧
      (t.readByte (s.iAddr + 1)).toNat = (s.getV x).toNat / 10 % 10 ∧
      (t.readByte (s.iAddr + 2)).toNat = (s.getV x).toNat % 10 ∧ SameMemoryOutside s t s.iAddr 3) ∧
    (4096 ≤ s.iAddr + 2 → ∃ t, exec (.ldB x) s = .next t ∧ t.fault = some (.memoryOutOfRange (max s.iAddr 4096)))

/-- R216: registers `V0` to `Vx` in index order, and the post-increment of base mode; the fault is raised at the first
address out of range. -/
def Obligations.StoreRegistersToMemory : Prop :=
  ∀ (x : Nibble) (s : State), s.wf = true → Encodes (wordXKK 0xF x 0x55) (.storeRegs x) ∧
    (s.iAddr + x.toNat < 4096 → ∃ t, exec (.storeRegs x) s = .next t ∧ t = { s with mem := t.mem, i := t.i } ∧
      (∀ k : Nibble, k.toNat ≤ x.toNat → t.readByte (s.iAddr + k.toNat) = s.getV k) ∧
      SameMemoryOutside s t s.iAddr (x.toNat + 1) ∧
      t.i.toNat = if s.cfg.schipMode = true then s.i.toNat else s.i.toNat + x.toNat + 1) ∧
    (4096 ≤ s.iAddr + x.toNat →
      ∃ t, exec (.storeRegs x) s = .next t ∧ t.fault = some (.memoryOutOfRange (max s.iAddr 4096)))

/-- R217: registers `V0` to `Vx` in index order, and the post-increment of base mode; the fault is raised at the first
address out of range. -/
def Obligations.LoadRegistersFromMemory : Prop :=
  ∀ (x : Nibble) (s : State), Encodes (wordXKK 0xF x 0x65) (.loadRegs x) ∧
    (s.iAddr + x.toNat < 4096 → ∃ t, exec (.loadRegs x) s = .next t ∧ t = { s with v := t.v, i := t.i } ∧
      SameMemory s t ∧
      (∀ k : Nibble, t.getV k = if k.toNat ≤ x.toNat then s.readByte (s.iAddr + k.toNat) else s.getV k) ∧
      t.i.toNat = if s.cfg.schipMode = true then s.i.toNat else s.i.toNat + x.toNat + 1) ∧
    (4096 ≤ s.iAddr + x.toNat →
      ∃ t, exec (.loadRegs x) s = .next t ∧ t.fault = some (.memoryOutOfRange (max s.iAddr 4096)))

/-! ### Display -/

/-- R251 -/
def Obligations.ClearScreen : Prop :=
  Encodes 0x00E0 .cls ∧ ∀ s : State, ∃ t, exec .cls s = .next t ∧ OnlyScreen s t ∧ t.hires = s.hires ∧
    (∀ x y, t.pixel x y = false) ∧ t.changed = true

/-- R252: each pixel is XORed with the sprite bit that falls on it, `VF` is the collision value, and the changed flag is
set exactly when a drawn byte is not 0; a draw that runs off memory changes no pixel and not `VF`. The axes and the bit order,
`n = 0`, the fault before any change, and the count in SCHIP mode are the spec's decisions D11 to D14 (log 7). -/
def Obligations.DrawXorsSprite : Prop :=
  ∀ (x y n : Nibble) (s : State), s.wf = true → Encodes (wordXYN 0xD x y n) (.drw x y n) ∧
    (n = 0 ∨ s.iAddr + n.toNat ≤ 4096 →
      ∃ t, exec (.drw x y n) s = .next t ∧ t = { s with v := t.v, fb := t.fb, changed := t.changed } ∧
        SameMemory s t ∧ SameVOutside s t [0xF] ∧
        (∀ px py, px < s.width → py < s.height → t.pixel px py = (s.pixel px py ^^ spriteCovers s x y n px py)) ∧
        (t.getVF = if s.cfg.schipMode = true then BitVec.ofNat 8 (collidingRows s x y n)
          else if 0 < collidingRows s x y n then 1 else 0) ∧
        (t.changed = true ↔ s.changed = true ∨ ∃ r, r < n.toNat ∧ s.readByte (s.iAddr + r) ≠ 0)) ∧
    (n ≠ 0 → 4096 < s.iAddr + n.toNat →
      ∃ t, exec (.drw x y n) s = .next t ∧ t.fault = some (.memoryOutOfRange (max s.iAddr 4096)) ∧
        t.fb = s.fb ∧ t.getVF = s.getVF)

/-- 95 E5, R252: drawing the same sprite twice at the same place restores every pixel, and the second draw collides
exactly when the first turned a pixel on (with the spec's decisions D11 to D14, log 7). -/
def Obligations.DrawTwiceRestores : Prop :=
  ∀ (x y n : Nibble) (s t : State), s.wf = true → x ≠ 0xF → y ≠ 0xF →
    n = 0 ∨ s.iAddr + n.toNat ≤ 4096 → exec (.drw x y n) s = .next t →
    ∃ u, exec (.drw x y n) t = .next u ∧
      (∀ px py, px < s.width → py < s.height → u.pixel px py = s.pixel px py) ∧
      (u.getVF ≠ 0 ↔ ∃ px py, px < s.width ∧ py < s.height ∧ s.pixel px py = false ∧ t.pixel px py = true)

/-- R253, R254, R255: the scrolls, pixel by pixel, in SCHIP mode; directions and distances are the spec's decision D15, the
changed flag its decision D17 (log 7). -/
def Obligations.ScrollsMovePixels : Prop :=
  ∀ (n : Nibble) (s : State), s.wf = true → s.cfg.schipMode = true →
    (Encodes (wordXYN 0x0 0x0 0xC n) (.scd n) ∧
      ∃ t, exec (.scd n) s = .next t ∧ OnlyScreen s t ∧ t.hires = s.hires ∧ t.changed = true ∧
        ∀ x y, x < s.width → y < s.height → t.pixel x y = if n.toNat ≤ y then s.pixel x (y - n.toNat) else false) ∧
    (Encodes 0x00FB .scr ∧
      ∃ t, exec .scr s = .next t ∧ OnlyScreen s t ∧ t.hires = s.hires ∧ t.changed = true ∧
        ∀ x y, x < s.width → y < s.height → t.pixel x y = if 4 ≤ x then s.pixel (x - 4) y else false) ∧
    (Encodes 0x00FC .scl ∧
      ∃ t, exec .scl s = .next t ∧ OnlyScreen s t ∧ t.hires = s.hires ∧ t.changed = true ∧
        ∀ x y, x < s.width → y < s.height → t.pixel x y = if x + 4 < s.width then s.pixel (x + 4) y else false)

/-- R256, R257, in SCHIP mode: the resolution is set and every pixel of the new grid is 0, whatever it was before (the spec's
decision D16); the changed flag is set (D17, log 7). -/
def Obligations.ResolutionSelectClears : Prop :=
  ∀ s : State, s.cfg.schipMode = true →
    (Encodes 0x00FE .low ∧ ∃ t, exec .low s = .next t ∧ OnlyScreen s t ∧ t.hires = false ∧ t.changed = true ∧
      Screen.wf 64 32 t.fb = true ∧ ∀ x y, t.pixel x y = false) ∧
    (Encodes 0x00FF .high ∧ ∃ t, exec .high s = .next t ∧ OnlyScreen s t ∧ t.hires = true ∧ t.changed = true ∧
      Screen.wf 128 64 t.fb = true ∧ ∀ x y, t.pixel x y = false)

/-! ### Timers and keys -/

/-- R290, R291; the fatal condition for a value of 16 or more is the spec's decision D20 (log 7). -/
def Obligations.KeySkipsReadTheLatch : Prop :=
  ∀ (x : Nibble) (s : State),
    Encodes (wordXKK 0xE x 0x9E) (.skp x) ∧ Encodes (wordXKK 0xE x 0xA1) (.sknp x) ∧
    (∀ k : Fin 16, (s.getV x).toNat = k.val →
      (∃ t, exec (.skp x) s = .next t ∧ OnlyPc s t ∧ t.pc = if s.keys[k] = true then s.pc + 2 else s.pc) ∧
      (∃ t, exec (.sknp x) s = .next t ∧ OnlyPc s t ∧ t.pc = if s.keys[k] = true then s.pc else s.pc + 2)) ∧
    (16 ≤ (s.getV x).toNat →
      (∃ t, exec (.skp x) s = .next t ∧ t.fault = some (.keyIndexOutOfRange (s.getV x))) ∧
      (∃ t, exec (.sknp x) s = .next t ∧ t.fault = some (.keyIndexOutOfRange (s.getV x))))

/-- R292, R293, R294: the instruction's own effect; the timer step of the same tick follows it (R344, decision D25). -/
def Obligations.TimerMoves : Prop :=
  ∀ (x : Nibble) (s : State),
    (Encodes (wordXKK 0xF x 0x07) (.ldVxDT x) ∧ ∃ t, exec (.ldVxDT x) s = .next t ∧ OnlyV s t ∧
      SameVOutside s t [x] ∧ t.getV x = s.dt) ∧
    (Encodes (wordXKK 0xF x 0x15) (.ldDTVx x) ∧ exec (.ldDTVx x) s = .next { s with dt := s.getV x }) ∧
    (Encodes (wordXKK 0xF x 0x18) (.ldSTVx x) ∧ exec (.ldSTVx x) s = .next { s with st := s.getV x })

/-- R295: the wait is entered, and nothing else is written; a tick with no key pressed leaves it so, with `PC` past the
instruction (the spec's decision D37) and the register unwritten; its timers do not step (D24, log 7). -/
def Obligations.KeyWaitEntered : Prop :=
  ∀ (x : Nibble) (s t : State), Encodes (wordXKK 0xF x 0x0A) (.ldVxK x) ∧
    exec (.ldVxK x) s = .next { s with awaiting := true, target := x } ∧
    (t.awaiting = true → t.stopped = false → (∀ k : Fin 16, t.keys[k] = false) → step t = .next t)

/-! ### SCHIP exit and flag registers -/

/-- R320, in SCHIP mode: the quit flag is set and nothing else; a tick after it changes nothing (the spec's decision D19,
log 7). -/
def Obligations.ExitSetsQuit : Prop :=
  Encodes 0x00FD .exit ∧
  (∀ s : State, s.cfg.schipMode = true → exec .exit s = .next { s with quit := true }) ∧
  ∀ s : State, s.quit = true → step s = .next s

/-- R321, in SCHIP mode; eight flag bytes, and the report above 7, are the spec's decision D18 (log 7). -/
def Obligations.SaveRegistersToRpl : Prop :=
  ∀ (x : Nibble) (s : State), s.cfg.schipMode = true → Encodes (wordXKK 0xF x 0x75) (.saveRpl x) ∧
    (x.toNat ≤ 7 → ∃ t, exec (.saveRpl x) s = .next t ∧ t = { s with rpl := t.rpl } ∧ SameMemory s t ∧
      ∀ k : Fin 8, t.rpl[k] = if k.val ≤ x.toNat then s.getV (BitVec.ofNat 4 k.val) else s.rpl[k]) ∧
    (7 < x.toNat → ∃ t, exec (.saveRpl x) s = .next t ∧ OnlyReport s t (.rplIndexOutOfRange (wordXKK 0xF x 0x75) x))

/-- R322, in SCHIP mode; eight flag bytes, and the report above 7, are the spec's decision D18 (log 7). -/
def Obligations.LoadRegistersFromRpl : Prop :=
  ∀ (x : Nibble) (s : State), s.cfg.schipMode = true → Encodes (wordXKK 0xF x 0x85) (.loadRpl x) ∧
    (x.toNat ≤ 7 → ∃ t, exec (.loadRpl x) s = .next t ∧ OnlyV s t ∧
      (∀ k : Fin 8, k.val ≤ x.toNat → t.getV (BitVec.ofNat 4 k.val) = s.rpl[k]) ∧
      ∀ r : Nibble, x.toNat < r.toNat → t.getV r = s.getV r) ∧
    (7 < x.toNat → ∃ t, exec (.loadRpl x) s = .next t ∧ OnlyReport s t (.rplIndexOutOfRange (wordXKK 0xF x 0x85) x))

/-- R113: in base mode each of the eight SCHIP-only instructions is a report and nothing else. -/
def Obligations.SchipOnlyIsReportedInBaseMode : Prop :=
  ∀ (i : Instr) (s : State), s.cfg.schipMode = false → isSchipOnly i = true →
    ∃ t, exec i s = .next t ∧ OnlyReport s t (.schipOnlyOpcode (encode i))
end

