-- ==== Sys2Proof/Laws/Encoding.lean ====
section
/-! SUPPORT. The fields of a word assembled in each format, and the words assembled from their fields (R102, R103). -/

namespace Sys2Proof

/-! ### Words and fields as numbers -/

theorem toNat_wordADDR (a : Nibble) (nnn : Addr12) : (wordADDR a nnn).toNat = a.toNat * 4096 + nnn.toNat := by
  have h : (wordADDR a nnn).toNat = a.toNat <<< 12 ||| nnn.toNat := BitVec.toNat_append a nnn
  rw [h, ← Nat.shiftLeft_add_eq_or_of_lt nnn.isLt, Nat.shiftLeft_eq]

theorem toNat_wordXKK (a x : Nibble) (kk : Byte) :
    (wordXKK a x kk).toNat = a.toNat * 4096 + x.toNat * 256 + kk.toNat := by
  have h : (wordXKK a x kk).toNat = (a ++ x).toNat <<< 8 ||| kk.toNat := BitVec.toNat_append (a ++ x) kk
  rw [h, ← Nat.shiftLeft_add_eq_or_of_lt kk.isLt, BitVec.toNat_append, ← Nat.shiftLeft_add_eq_or_of_lt x.isLt]
  simp only [Nat.shiftLeft_eq]
  omega

theorem toNat_wordXYN (a x y n : Nibble) :
    (wordXYN a x y n).toNat = a.toNat * 4096 + x.toNat * 256 + y.toNat * 16 + n.toNat := by
  have h : (wordXYN a x y n).toNat = (a ++ x ++ y).toNat <<< 4 ||| n.toNat := BitVec.toNat_append (a ++ x ++ y) n
  rw [h, ← Nat.shiftLeft_add_eq_or_of_lt n.isLt, BitVec.toNat_append, ← Nat.shiftLeft_add_eq_or_of_lt y.isLt,
    BitVec.toNat_append, ← Nat.shiftLeft_add_eq_or_of_lt x.isLt]
  simp only [Nat.shiftLeft_eq]
  omega

theorem toNat_fieldA (w : Word) : (fieldA w).toNat = w.toNat / 4096 % 16 := by
  simp [fieldA, BitVec.extractLsb'_toNat, Nat.shiftRight_eq_div_pow]
theorem toNat_fieldX (w : Word) : (fieldX w).toNat = w.toNat / 256 % 16 := by
  simp [fieldX, BitVec.extractLsb'_toNat, Nat.shiftRight_eq_div_pow]
theorem toNat_fieldY (w : Word) : (fieldY w).toNat = w.toNat / 16 % 16 := by
  simp [fieldY, BitVec.extractLsb'_toNat, Nat.shiftRight_eq_div_pow]
theorem toNat_fieldN (w : Word) : (fieldN w).toNat = w.toNat % 16 := by
  simp [fieldN, BitVec.extractLsb'_toNat]
theorem toNat_fieldKK (w : Word) : (fieldKK w).toNat = w.toNat % 256 := by
  simp [fieldKK, BitVec.extractLsb'_toNat]
theorem toNat_fieldNNN (w : Word) : (fieldNNN w).toNat = w.toNat % 4096 := by
  simp [fieldNNN, BitVec.extractLsb'_toNat]

/-! ### The fields of an assembled word -/

@[simp] theorem fieldA_wordADDR (a : Nibble) (nnn : Addr12) : fieldA (wordADDR a nnn) = a := by
  apply BitVec.eq_of_toNat_eq
  rw [toNat_fieldA, toNat_wordADDR]
  omega
@[simp] theorem fieldNNN_wordADDR (a : Nibble) (nnn : Addr12) : fieldNNN (wordADDR a nnn) = nnn := by
  apply BitVec.eq_of_toNat_eq
  rw [toNat_fieldNNN, toNat_wordADDR]
  omega
@[simp] theorem fieldA_wordXKK (a x : Nibble) (kk : Byte) : fieldA (wordXKK a x kk) = a := by
  apply BitVec.eq_of_toNat_eq
  rw [toNat_fieldA, toNat_wordXKK]
  omega
@[simp] theorem fieldX_wordXKK (a x : Nibble) (kk : Byte) : fieldX (wordXKK a x kk) = x := by
  apply BitVec.eq_of_toNat_eq
  rw [toNat_fieldX, toNat_wordXKK]
  omega
@[simp] theorem fieldKK_wordXKK (a x : Nibble) (kk : Byte) : fieldKK (wordXKK a x kk) = kk := by
  apply BitVec.eq_of_toNat_eq
  rw [toNat_fieldKK, toNat_wordXKK]
  omega
@[simp] theorem fieldA_wordXYN (a x y n : Nibble) : fieldA (wordXYN a x y n) = a := by
  apply BitVec.eq_of_toNat_eq
  rw [toNat_fieldA, toNat_wordXYN]
  omega
@[simp] theorem fieldX_wordXYN (a x y n : Nibble) : fieldX (wordXYN a x y n) = x := by
  apply BitVec.eq_of_toNat_eq
  rw [toNat_fieldX, toNat_wordXYN]
  omega
@[simp] theorem fieldY_wordXYN (a x y n : Nibble) : fieldY (wordXYN a x y n) = y := by
  apply BitVec.eq_of_toNat_eq
  rw [toNat_fieldY, toNat_wordXYN]
  omega
@[simp] theorem fieldN_wordXYN (a x y n : Nibble) : fieldN (wordXYN a x y n) = n := by
  apply BitVec.eq_of_toNat_eq
  rw [toNat_fieldN, toNat_wordXYN]
  omega

/-! ### A word is the assembly of its fields, and the two bytes of a word are the word -/

theorem wordADDR_fields (w : Word) : wordADDR (fieldA w) (fieldNNN w) = w := by
  apply BitVec.eq_of_toNat_eq
  rw [toNat_wordADDR, toNat_fieldA, toNat_fieldNNN]
  omega
theorem wordXKK_fields (w : Word) : wordXKK (fieldA w) (fieldX w) (fieldKK w) = w := by
  apply BitVec.eq_of_toNat_eq
  rw [toNat_wordXKK, toNat_fieldA, toNat_fieldX, toNat_fieldKK]
  omega
theorem wordXYN_fields (w : Word) : wordXYN (fieldA w) (fieldX w) (fieldY w) (fieldN w) = w := by
  apply BitVec.eq_of_toNat_eq
  rw [toNat_wordXYN, toNat_fieldA, toNat_fieldX, toNat_fieldY, toNat_fieldN]
  omega

@[simp] theorem wordOfBytes_bytes (w : Word) : wordOfBytes (hiByte w) (loByte w) = w := by
  apply BitVec.eq_of_toNat_eq
  have h : (wordOfBytes (hiByte w) (loByte w)).toNat = (hiByte w).toNat <<< 8 ||| (loByte w).toNat :=
    BitVec.toNat_append _ _
  have h1 : (hiByte w).toNat = w.toNat / 256 % 256 := by
    simp [hiByte, BitVec.extractLsb'_toNat, Nat.shiftRight_eq_div_pow]
  have h2 : (loByte w).toNat = w.toNat % 256 := by
    simp [loByte, BitVec.extractLsb'_toNat]
  rw [h, ← Nat.shiftLeft_add_eq_or_of_lt (loByte w).isLt, Nat.shiftLeft_eq, h1, h2]
  omega

end Sys2Proof
end

