-- ==== Sys2Proof/Laws/Memory.lean ====
section
/-! SUPPORT. The laws of memory: a read after a write, and the canonical form. -/

namespace Sys2Proof.Machine

variable {d : Nat → Byte}

@[simp] theorem Memory.read_nil (a : Nat) : Memory.read d [] a = d a := rfl

theorem Memory.wfFrom_mono {lo lo' : Nat} {m : Memory} (h : Memory.wfFrom d lo m = true) (hl : lo' ≤ lo) :
    Memory.wfFrom d lo' m = true := by
  cases m with
  | nil => rfl
  | cons c m =>
    obtain ⟨k, b⟩ := c
    simp only [Memory.wfFrom, Bool.and_eq_true, decide_eq_true_eq] at h ⊢
    exact ⟨⟨⟨by omega, h.1.1.2⟩, h.1.2⟩, h.2⟩

/-- Below the first listed address, memory reads as the reset contents. -/
theorem Memory.read_below {lo a : Nat} {m : Memory} (h : Memory.wfFrom d lo m = true) (ha : a < lo) :
    Memory.read d m a = d a := by
  induction m generalizing lo with
  | nil => rfl
  | cons c m ih =>
    obtain ⟨k, b⟩ := c
    simp only [Memory.wfFrom, Bool.and_eq_true, decide_eq_true_eq] at h
    simp only [Memory.read, if_neg (show k ≠ a by omega)]
    exact ih h.2 (by omega)

/-- A write leaves every other address alone. -/
theorem Memory.read_write_other {m : Memory} {a a' : Nat} {v : Byte} (h : a' ≠ a) :
    Memory.read d (Memory.write d m a v) a' = Memory.read d m a' := by
  induction m with
  | nil =>
    simp only [Memory.write]
    split <;> simp [Memory.read, h.symm]
  | cons c m ih =>
    obtain ⟨k, b⟩ := c
    simp only [Memory.write]
    split
    · split <;> simp [Memory.read, h.symm]
    · split
      · rename_i hk
        split <;> simp [Memory.read, ← hk, h.symm]
      · simp only [Memory.read, ih]

/-- A read after a write to the same address gives the byte written. -/
theorem Memory.read_write_same {lo a : Nat} {m : Memory} {v : Byte} (h : Memory.wfFrom d lo m = true) :
    Memory.read d (Memory.write d m a v) a = v := by
  induction m generalizing lo with
  | nil =>
    simp only [Memory.write]
    split <;> simp_all [Memory.read]
  | cons c m ih =>
    obtain ⟨k, b⟩ := c
    have hm := h
    simp only [Memory.wfFrom, Bool.and_eq_true, decide_eq_true_eq] at h
    simp only [Memory.write]
    split
    · rename_i hk
      split
      · rename_i hv
        rw [Memory.read, if_neg (by omega), Memory.read_below h.2 (by omega), hv]
      · simp [Memory.read]
    · split
      · rename_i hk
        split
        · rename_i hv
          rw [Memory.read_below h.2 (by omega), hv]
        · simp [Memory.read]
      · rename_i hk hk'
        rw [Memory.read, if_neg (by omega)]
        exact ih h.2

/-- A write to an address that exists keeps the canonical form, from any address at or below both. -/
theorem Memory.wfFrom_write {lo a : Nat} {m : Memory} {v : Byte} (h : Memory.wfFrom d lo m = true) (hlo : lo ≤ a)
    (ha : a < memSize) : Memory.wfFrom d lo (Memory.write d m a v) = true := by
  induction m generalizing lo with
  | nil =>
    simp only [Memory.write]
    split <;> simp_all [Memory.wfFrom]
  | cons c m ih =>
    obtain ⟨k, b⟩ := c
    have hm := h
    simp only [Memory.wfFrom, Bool.and_eq_true, decide_eq_true_eq] at h
    simp only [Memory.write]
    split
    · rename_i hk
      split
      · exact hm
      · simp only [Memory.wfFrom, Bool.and_eq_true, decide_eq_true_eq]
        exact ⟨⟨⟨hlo, ha⟩, by assumption⟩, ⟨⟨by omega, h.1.1.2⟩, h.1.2⟩, h.2⟩
    · split
      · rename_i hk
        split
        · exact Memory.wfFrom_mono h.2 (by omega)
        · simp only [Memory.wfFrom, Bool.and_eq_true, decide_eq_true_eq]
          exact ⟨⟨⟨hlo, ha⟩, by assumption⟩, hk ▸ h.2⟩
      · simp only [Memory.wfFrom, Bool.and_eq_true, decide_eq_true_eq]
        exact ⟨⟨⟨h.1.1.1, h.1.1.2⟩, h.1.2⟩, ih h.2 (by omega)⟩

/-- Every write to an address that exists keeps memory canonical. -/
theorem Memory.wf_write {a : Nat} {m : Memory} {v : Byte} (h : Memory.wf d m = true) (ha : a < memSize) :
    Memory.wf d (Memory.write d m a v) = true :=
  Memory.wfFrom_write h (Nat.zero_le a) ha

/-- Empty memory is canonical. -/
@[simp] theorem Memory.wf_nil : Memory.wf d [] = true := rfl

/-- Two canonical memories that read the same everywhere are the same list. -/
theorem Memory.ext_of_wfFrom {lo : Nat} {m m' : Memory} (h : Memory.wfFrom d lo m = true)
    (h' : Memory.wfFrom d lo m' = true) (hr : ∀ a, Memory.read d m a = Memory.read d m' a) : m = m' := by
  induction m generalizing lo m' with
  | nil =>
    cases m' with
    | nil => rfl
    | cons c m' =>
      obtain ⟨k, b⟩ := c
      simp only [Memory.wfFrom, Bool.and_eq_true, decide_eq_true_eq] at h'
      have := hr k
      simp [Memory.read] at this
      exact absurd this.symm h'.1.2
  | cons c m ih =>
    obtain ⟨k, b⟩ := c
    simp only [Memory.wfFrom, Bool.and_eq_true, decide_eq_true_eq] at h
    cases m' with
    | nil =>
      have := hr k
      simp [Memory.read] at this
      exact absurd this h.1.2
    | cons c' m' =>
      obtain ⟨k', b'⟩ := c'
      simp only [Memory.wfFrom, Bool.and_eq_true, decide_eq_true_eq] at h'
      have hk : k = k' := by
        rcases Nat.lt_trichotomy k k' with hlt | heq | hgt
        · have := hr k
          rw [Memory.read, if_pos rfl, Memory.read, if_neg (by omega), Memory.read_below h'.2 (by omega)] at this
          exact absurd this h.1.2
        · exact heq
        · have := hr k'
          rw [Memory.read, if_neg (by omega), Memory.read_below h.2 (by omega), Memory.read, if_pos rfl] at this
          exact absurd this.symm h'.1.2
      subst hk
      have hb : b = b' := by simpa [Memory.read] using hr k
      subst hb
      have : m = m' := by
        refine ih h.2 h'.2 fun a => ?_
        by_cases ha : k = a
        · subst ha
          rw [Memory.read_below h.2 (by omega), Memory.read_below h'.2 (by omega)]
        · simpa [Memory.read, ha] using hr a
      rw [this]

/-! ### The reset contents (R401) -/

/-- The small font lies at 0x050. -/
theorem resetByte_fontSmall (c : Config) (k : Fin 80) : resetByte c (0x050 + k.val) = c.fontSmall[k] := by
  have hk := k.isLt
  rw [resetByte, if_pos (by simp only [smallFontBase]; omega)]
  simp [smallFontBase]

/-- The large font lies at its base, where that base lies after the small font. -/
theorem resetByte_fontLarge {c : Config} (h : 0x0A0 ≤ c.largeFontBase.toNat) (k : Fin 100) :
    resetByte c (c.largeFontBase.toNat + k.val) = c.fontLarge[k] := by
  have hk := k.isLt
  rw [resetByte, if_neg (by simp only [smallFontBase]; omega), if_pos (by omega)]
  simp

/-- Every other byte is 0. -/
theorem resetByte_other {c : Config} {a : Nat} (h1 : ¬(0x050 ≤ a ∧ a < 0x0A0))
    (h2 : ¬(c.largeFontBase.toNat ≤ a ∧ a < c.largeFontBase.toNat + 100)) : resetByte c a = 0 := by
  rw [resetByte, if_neg (by simpa only [smallFontBase] using h1), if_neg h2]

end Sys2Proof.Machine
end

