-- ==== Sys2Proof/Laws/State.lean ====
section
/-! SUPPORT. What each field update leaves in each field of the state: one lemma per field per update. -/

namespace Sys2Proof.Machine

/-! ### `State.withV` -/

section WithV
variable (s : State) (n_v : Vector Byte 16)

@[simp] theorem State.withV_v : (s.withV n_v).v = n_v := rfl
@[simp] theorem State.withV_i : (s.withV n_v).i = s.i := rfl
@[simp] theorem State.withV_pc : (s.withV n_v).pc = s.pc := rfl
@[simp] theorem State.withV_stack : (s.withV n_v).stack = s.stack := rfl
@[simp] theorem State.withV_sp : (s.withV n_v).sp = s.sp := rfl
@[simp] theorem State.withV_dt : (s.withV n_v).dt = s.dt := rfl
@[simp] theorem State.withV_st : (s.withV n_v).st = s.st := rfl
@[simp] theorem State.withV_mem : (s.withV n_v).mem = s.mem := rfl
@[simp] theorem State.withV_keys : (s.withV n_v).keys = s.keys := rfl
@[simp] theorem State.withV_awaiting : (s.withV n_v).awaiting = s.awaiting := rfl
@[simp] theorem State.withV_target : (s.withV n_v).target = s.target := rfl
@[simp] theorem State.withV_hires : (s.withV n_v).hires = s.hires := rfl
@[simp] theorem State.withV_fb : (s.withV n_v).fb = s.fb := rfl
@[simp] theorem State.withV_changed : (s.withV n_v).changed = s.changed := rfl
@[simp] theorem State.withV_rpl : (s.withV n_v).rpl = s.rpl := rfl
@[simp] theorem State.withV_quit : (s.withV n_v).quit = s.quit := rfl
@[simp] theorem State.withV_fault : (s.withV n_v).fault = s.fault := rfl
@[simp] theorem State.withV_cfg : (s.withV n_v).cfg = s.cfg := rfl
@[simp] theorem State.withV_draws : (s.withV n_v).draws = s.draws := rfl
@[simp] theorem State.withV_reports : (s.withV n_v).reports = s.reports := rfl

end WithV

/-! ### `State.withPc` -/

section WithPc
variable (s : State) (n_pc : Word)

@[simp] theorem State.withPc_v : (s.withPc n_pc).v = s.v := rfl
@[simp] theorem State.withPc_i : (s.withPc n_pc).i = s.i := rfl
@[simp] theorem State.withPc_pc : (s.withPc n_pc).pc = n_pc := rfl
@[simp] theorem State.withPc_stack : (s.withPc n_pc).stack = s.stack := rfl
@[simp] theorem State.withPc_sp : (s.withPc n_pc).sp = s.sp := rfl
@[simp] theorem State.withPc_dt : (s.withPc n_pc).dt = s.dt := rfl
@[simp] theorem State.withPc_st : (s.withPc n_pc).st = s.st := rfl
@[simp] theorem State.withPc_mem : (s.withPc n_pc).mem = s.mem := rfl
@[simp] theorem State.withPc_keys : (s.withPc n_pc).keys = s.keys := rfl
@[simp] theorem State.withPc_awaiting : (s.withPc n_pc).awaiting = s.awaiting := rfl
@[simp] theorem State.withPc_target : (s.withPc n_pc).target = s.target := rfl
@[simp] theorem State.withPc_hires : (s.withPc n_pc).hires = s.hires := rfl
@[simp] theorem State.withPc_fb : (s.withPc n_pc).fb = s.fb := rfl
@[simp] theorem State.withPc_changed : (s.withPc n_pc).changed = s.changed := rfl
@[simp] theorem State.withPc_rpl : (s.withPc n_pc).rpl = s.rpl := rfl
@[simp] theorem State.withPc_quit : (s.withPc n_pc).quit = s.quit := rfl
@[simp] theorem State.withPc_fault : (s.withPc n_pc).fault = s.fault := rfl
@[simp] theorem State.withPc_cfg : (s.withPc n_pc).cfg = s.cfg := rfl
@[simp] theorem State.withPc_draws : (s.withPc n_pc).draws = s.draws := rfl
@[simp] theorem State.withPc_reports : (s.withPc n_pc).reports = s.reports := rfl

end WithPc

/-! ### `State.withI` -/

section WithI
variable (s : State) (n_i : Word)

@[simp] theorem State.withI_v : (s.withI n_i).v = s.v := rfl
@[simp] theorem State.withI_i : (s.withI n_i).i = n_i := rfl
@[simp] theorem State.withI_pc : (s.withI n_i).pc = s.pc := rfl
@[simp] theorem State.withI_stack : (s.withI n_i).stack = s.stack := rfl
@[simp] theorem State.withI_sp : (s.withI n_i).sp = s.sp := rfl
@[simp] theorem State.withI_dt : (s.withI n_i).dt = s.dt := rfl
@[simp] theorem State.withI_st : (s.withI n_i).st = s.st := rfl
@[simp] theorem State.withI_mem : (s.withI n_i).mem = s.mem := rfl
@[simp] theorem State.withI_keys : (s.withI n_i).keys = s.keys := rfl
@[simp] theorem State.withI_awaiting : (s.withI n_i).awaiting = s.awaiting := rfl
@[simp] theorem State.withI_target : (s.withI n_i).target = s.target := rfl
@[simp] theorem State.withI_hires : (s.withI n_i).hires = s.hires := rfl
@[simp] theorem State.withI_fb : (s.withI n_i).fb = s.fb := rfl
@[simp] theorem State.withI_changed : (s.withI n_i).changed = s.changed := rfl
@[simp] theorem State.withI_rpl : (s.withI n_i).rpl = s.rpl := rfl
@[simp] theorem State.withI_quit : (s.withI n_i).quit = s.quit := rfl
@[simp] theorem State.withI_fault : (s.withI n_i).fault = s.fault := rfl
@[simp] theorem State.withI_cfg : (s.withI n_i).cfg = s.cfg := rfl
@[simp] theorem State.withI_draws : (s.withI n_i).draws = s.draws := rfl
@[simp] theorem State.withI_reports : (s.withI n_i).reports = s.reports := rfl

end WithI

/-! ### `State.withStack` -/

section WithStack
variable (s : State) (n_stack : Vector Word 16) (n_sp : Fin 17)

@[simp] theorem State.withStack_v : (s.withStack n_stack n_sp).v = s.v := rfl
@[simp] theorem State.withStack_i : (s.withStack n_stack n_sp).i = s.i := rfl
@[simp] theorem State.withStack_pc : (s.withStack n_stack n_sp).pc = s.pc := rfl
@[simp] theorem State.withStack_stack : (s.withStack n_stack n_sp).stack = n_stack := rfl
@[simp] theorem State.withStack_sp : (s.withStack n_stack n_sp).sp = n_sp := rfl
@[simp] theorem State.withStack_dt : (s.withStack n_stack n_sp).dt = s.dt := rfl
@[simp] theorem State.withStack_st : (s.withStack n_stack n_sp).st = s.st := rfl
@[simp] theorem State.withStack_mem : (s.withStack n_stack n_sp).mem = s.mem := rfl
@[simp] theorem State.withStack_keys : (s.withStack n_stack n_sp).keys = s.keys := rfl
@[simp] theorem State.withStack_awaiting : (s.withStack n_stack n_sp).awaiting = s.awaiting := rfl
@[simp] theorem State.withStack_target : (s.withStack n_stack n_sp).target = s.target := rfl
@[simp] theorem State.withStack_hires : (s.withStack n_stack n_sp).hires = s.hires := rfl
@[simp] theorem State.withStack_fb : (s.withStack n_stack n_sp).fb = s.fb := rfl
@[simp] theorem State.withStack_changed : (s.withStack n_stack n_sp).changed = s.changed := rfl
@[simp] theorem State.withStack_rpl : (s.withStack n_stack n_sp).rpl = s.rpl := rfl
@[simp] theorem State.withStack_quit : (s.withStack n_stack n_sp).quit = s.quit := rfl
@[simp] theorem State.withStack_fault : (s.withStack n_stack n_sp).fault = s.fault := rfl
@[simp] theorem State.withStack_cfg : (s.withStack n_stack n_sp).cfg = s.cfg := rfl
@[simp] theorem State.withStack_draws : (s.withStack n_stack n_sp).draws = s.draws := rfl
@[simp] theorem State.withStack_reports : (s.withStack n_stack n_sp).reports = s.reports := rfl

end WithStack

/-! ### `State.withTimers` -/

section WithTimers
variable (s : State) (n_dt : Byte) (n_st : Byte)

@[simp] theorem State.withTimers_v : (s.withTimers n_dt n_st).v = s.v := rfl
@[simp] theorem State.withTimers_i : (s.withTimers n_dt n_st).i = s.i := rfl
@[simp] theorem State.withTimers_pc : (s.withTimers n_dt n_st).pc = s.pc := rfl
@[simp] theorem State.withTimers_stack : (s.withTimers n_dt n_st).stack = s.stack := rfl
@[simp] theorem State.withTimers_sp : (s.withTimers n_dt n_st).sp = s.sp := rfl
@[simp] theorem State.withTimers_dt : (s.withTimers n_dt n_st).dt = n_dt := rfl
@[simp] theorem State.withTimers_st : (s.withTimers n_dt n_st).st = n_st := rfl
@[simp] theorem State.withTimers_mem : (s.withTimers n_dt n_st).mem = s.mem := rfl
@[simp] theorem State.withTimers_keys : (s.withTimers n_dt n_st).keys = s.keys := rfl
@[simp] theorem State.withTimers_awaiting : (s.withTimers n_dt n_st).awaiting = s.awaiting := rfl
@[simp] theorem State.withTimers_target : (s.withTimers n_dt n_st).target = s.target := rfl
@[simp] theorem State.withTimers_hires : (s.withTimers n_dt n_st).hires = s.hires := rfl
@[simp] theorem State.withTimers_fb : (s.withTimers n_dt n_st).fb = s.fb := rfl
@[simp] theorem State.withTimers_changed : (s.withTimers n_dt n_st).changed = s.changed := rfl
@[simp] theorem State.withTimers_rpl : (s.withTimers n_dt n_st).rpl = s.rpl := rfl
@[simp] theorem State.withTimers_quit : (s.withTimers n_dt n_st).quit = s.quit := rfl
@[simp] theorem State.withTimers_fault : (s.withTimers n_dt n_st).fault = s.fault := rfl
@[simp] theorem State.withTimers_cfg : (s.withTimers n_dt n_st).cfg = s.cfg := rfl
@[simp] theorem State.withTimers_draws : (s.withTimers n_dt n_st).draws = s.draws := rfl
@[simp] theorem State.withTimers_reports : (s.withTimers n_dt n_st).reports = s.reports := rfl

end WithTimers

/-! ### `State.withMem` -/

section WithMem
variable (s : State) (n_mem : Memory)

@[simp] theorem State.withMem_v : (s.withMem n_mem).v = s.v := rfl
@[simp] theorem State.withMem_i : (s.withMem n_mem).i = s.i := rfl
@[simp] theorem State.withMem_pc : (s.withMem n_mem).pc = s.pc := rfl
@[simp] theorem State.withMem_stack : (s.withMem n_mem).stack = s.stack := rfl
@[simp] theorem State.withMem_sp : (s.withMem n_mem).sp = s.sp := rfl
@[simp] theorem State.withMem_dt : (s.withMem n_mem).dt = s.dt := rfl
@[simp] theorem State.withMem_st : (s.withMem n_mem).st = s.st := rfl
@[simp] theorem State.withMem_mem : (s.withMem n_mem).mem = n_mem := rfl
@[simp] theorem State.withMem_keys : (s.withMem n_mem).keys = s.keys := rfl
@[simp] theorem State.withMem_awaiting : (s.withMem n_mem).awaiting = s.awaiting := rfl
@[simp] theorem State.withMem_target : (s.withMem n_mem).target = s.target := rfl
@[simp] theorem State.withMem_hires : (s.withMem n_mem).hires = s.hires := rfl
@[simp] theorem State.withMem_fb : (s.withMem n_mem).fb = s.fb := rfl
@[simp] theorem State.withMem_changed : (s.withMem n_mem).changed = s.changed := rfl
@[simp] theorem State.withMem_rpl : (s.withMem n_mem).rpl = s.rpl := rfl
@[simp] theorem State.withMem_quit : (s.withMem n_mem).quit = s.quit := rfl
@[simp] theorem State.withMem_fault : (s.withMem n_mem).fault = s.fault := rfl
@[simp] theorem State.withMem_cfg : (s.withMem n_mem).cfg = s.cfg := rfl
@[simp] theorem State.withMem_draws : (s.withMem n_mem).draws = s.draws := rfl
@[simp] theorem State.withMem_reports : (s.withMem n_mem).reports = s.reports := rfl

end WithMem

/-! ### `State.withKeys` -/

section WithKeys
variable (s : State) (n_keys : Vector Bool 16)

@[simp] theorem State.withKeys_v : (s.withKeys n_keys).v = s.v := rfl
@[simp] theorem State.withKeys_i : (s.withKeys n_keys).i = s.i := rfl
@[simp] theorem State.withKeys_pc : (s.withKeys n_keys).pc = s.pc := rfl
@[simp] theorem State.withKeys_stack : (s.withKeys n_keys).stack = s.stack := rfl
@[simp] theorem State.withKeys_sp : (s.withKeys n_keys).sp = s.sp := rfl
@[simp] theorem State.withKeys_dt : (s.withKeys n_keys).dt = s.dt := rfl
@[simp] theorem State.withKeys_st : (s.withKeys n_keys).st = s.st := rfl
@[simp] theorem State.withKeys_mem : (s.withKeys n_keys).mem = s.mem := rfl
@[simp] theorem State.withKeys_keys : (s.withKeys n_keys).keys = n_keys := rfl
@[simp] theorem State.withKeys_awaiting : (s.withKeys n_keys).awaiting = s.awaiting := rfl
@[simp] theorem State.withKeys_target : (s.withKeys n_keys).target = s.target := rfl
@[simp] theorem State.withKeys_hires : (s.withKeys n_keys).hires = s.hires := rfl
@[simp] theorem State.withKeys_fb : (s.withKeys n_keys).fb = s.fb := rfl
@[simp] theorem State.withKeys_changed : (s.withKeys n_keys).changed = s.changed := rfl
@[simp] theorem State.withKeys_rpl : (s.withKeys n_keys).rpl = s.rpl := rfl
@[simp] theorem State.withKeys_quit : (s.withKeys n_keys).quit = s.quit := rfl
@[simp] theorem State.withKeys_fault : (s.withKeys n_keys).fault = s.fault := rfl
@[simp] theorem State.withKeys_cfg : (s.withKeys n_keys).cfg = s.cfg := rfl
@[simp] theorem State.withKeys_draws : (s.withKeys n_keys).draws = s.draws := rfl
@[simp] theorem State.withKeys_reports : (s.withKeys n_keys).reports = s.reports := rfl

end WithKeys

/-! ### `State.withWait` -/

section WithWait
variable (s : State) (n_awaiting : Bool) (n_target : Nibble)

@[simp] theorem State.withWait_v : (s.withWait n_awaiting n_target).v = s.v := rfl
@[simp] theorem State.withWait_i : (s.withWait n_awaiting n_target).i = s.i := rfl
@[simp] theorem State.withWait_pc : (s.withWait n_awaiting n_target).pc = s.pc := rfl
@[simp] theorem State.withWait_stack : (s.withWait n_awaiting n_target).stack = s.stack := rfl
@[simp] theorem State.withWait_sp : (s.withWait n_awaiting n_target).sp = s.sp := rfl
@[simp] theorem State.withWait_dt : (s.withWait n_awaiting n_target).dt = s.dt := rfl
@[simp] theorem State.withWait_st : (s.withWait n_awaiting n_target).st = s.st := rfl
@[simp] theorem State.withWait_mem : (s.withWait n_awaiting n_target).mem = s.mem := rfl
@[simp] theorem State.withWait_keys : (s.withWait n_awaiting n_target).keys = s.keys := rfl
@[simp] theorem State.withWait_awaiting : (s.withWait n_awaiting n_target).awaiting = n_awaiting := rfl
@[simp] theorem State.withWait_target : (s.withWait n_awaiting n_target).target = n_target := rfl
@[simp] theorem State.withWait_hires : (s.withWait n_awaiting n_target).hires = s.hires := rfl
@[simp] theorem State.withWait_fb : (s.withWait n_awaiting n_target).fb = s.fb := rfl
@[simp] theorem State.withWait_changed : (s.withWait n_awaiting n_target).changed = s.changed := rfl
@[simp] theorem State.withWait_rpl : (s.withWait n_awaiting n_target).rpl = s.rpl := rfl
@[simp] theorem State.withWait_quit : (s.withWait n_awaiting n_target).quit = s.quit := rfl
@[simp] theorem State.withWait_fault : (s.withWait n_awaiting n_target).fault = s.fault := rfl
@[simp] theorem State.withWait_cfg : (s.withWait n_awaiting n_target).cfg = s.cfg := rfl
@[simp] theorem State.withWait_draws : (s.withWait n_awaiting n_target).draws = s.draws := rfl
@[simp] theorem State.withWait_reports : (s.withWait n_awaiting n_target).reports = s.reports := rfl

end WithWait

/-! ### `State.withScreen` -/

section WithScreen
variable (s : State) (n_hires : Bool) (n_fb : Screen) (n_changed : Bool)

@[simp] theorem State.withScreen_v : (s.withScreen n_hires n_fb n_changed).v = s.v := rfl
@[simp] theorem State.withScreen_i : (s.withScreen n_hires n_fb n_changed).i = s.i := rfl
@[simp] theorem State.withScreen_pc : (s.withScreen n_hires n_fb n_changed).pc = s.pc := rfl
@[simp] theorem State.withScreen_stack : (s.withScreen n_hires n_fb n_changed).stack = s.stack := rfl
@[simp] theorem State.withScreen_sp : (s.withScreen n_hires n_fb n_changed).sp = s.sp := rfl
@[simp] theorem State.withScreen_dt : (s.withScreen n_hires n_fb n_changed).dt = s.dt := rfl
@[simp] theorem State.withScreen_st : (s.withScreen n_hires n_fb n_changed).st = s.st := rfl
@[simp] theorem State.withScreen_mem : (s.withScreen n_hires n_fb n_changed).mem = s.mem := rfl
@[simp] theorem State.withScreen_keys : (s.withScreen n_hires n_fb n_changed).keys = s.keys := rfl
@[simp] theorem State.withScreen_awaiting : (s.withScreen n_hires n_fb n_changed).awaiting = s.awaiting := rfl
@[simp] theorem State.withScreen_target : (s.withScreen n_hires n_fb n_changed).target = s.target := rfl
@[simp] theorem State.withScreen_hires : (s.withScreen n_hires n_fb n_changed).hires = n_hires := rfl
@[simp] theorem State.withScreen_fb : (s.withScreen n_hires n_fb n_changed).fb = n_fb := rfl
@[simp] theorem State.withScreen_changed : (s.withScreen n_hires n_fb n_changed).changed = n_changed := rfl
@[simp] theorem State.withScreen_rpl : (s.withScreen n_hires n_fb n_changed).rpl = s.rpl := rfl
@[simp] theorem State.withScreen_quit : (s.withScreen n_hires n_fb n_changed).quit = s.quit := rfl
@[simp] theorem State.withScreen_fault : (s.withScreen n_hires n_fb n_changed).fault = s.fault := rfl
@[simp] theorem State.withScreen_cfg : (s.withScreen n_hires n_fb n_changed).cfg = s.cfg := rfl
@[simp] theorem State.withScreen_draws : (s.withScreen n_hires n_fb n_changed).draws = s.draws := rfl
@[simp] theorem State.withScreen_reports : (s.withScreen n_hires n_fb n_changed).reports = s.reports := rfl

end WithScreen

/-! ### `State.withRpl` -/

section WithRpl
variable (s : State) (n_rpl : Vector Byte 8)

@[simp] theorem State.withRpl_v : (s.withRpl n_rpl).v = s.v := rfl
@[simp] theorem State.withRpl_i : (s.withRpl n_rpl).i = s.i := rfl
@[simp] theorem State.withRpl_pc : (s.withRpl n_rpl).pc = s.pc := rfl
@[simp] theorem State.withRpl_stack : (s.withRpl n_rpl).stack = s.stack := rfl
@[simp] theorem State.withRpl_sp : (s.withRpl n_rpl).sp = s.sp := rfl
@[simp] theorem State.withRpl_dt : (s.withRpl n_rpl).dt = s.dt := rfl
@[simp] theorem State.withRpl_st : (s.withRpl n_rpl).st = s.st := rfl
@[simp] theorem State.withRpl_mem : (s.withRpl n_rpl).mem = s.mem := rfl
@[simp] theorem State.withRpl_keys : (s.withRpl n_rpl).keys = s.keys := rfl
@[simp] theorem State.withRpl_awaiting : (s.withRpl n_rpl).awaiting = s.awaiting := rfl
@[simp] theorem State.withRpl_target : (s.withRpl n_rpl).target = s.target := rfl
@[simp] theorem State.withRpl_hires : (s.withRpl n_rpl).hires = s.hires := rfl
@[simp] theorem State.withRpl_fb : (s.withRpl n_rpl).fb = s.fb := rfl
@[simp] theorem State.withRpl_changed : (s.withRpl n_rpl).changed = s.changed := rfl
@[simp] theorem State.withRpl_rpl : (s.withRpl n_rpl).rpl = n_rpl := rfl
@[simp] theorem State.withRpl_quit : (s.withRpl n_rpl).quit = s.quit := rfl
@[simp] theorem State.withRpl_fault : (s.withRpl n_rpl).fault = s.fault := rfl
@[simp] theorem State.withRpl_cfg : (s.withRpl n_rpl).cfg = s.cfg := rfl
@[simp] theorem State.withRpl_draws : (s.withRpl n_rpl).draws = s.draws := rfl
@[simp] theorem State.withRpl_reports : (s.withRpl n_rpl).reports = s.reports := rfl

end WithRpl

/-! ### `State.withQuit` -/

section WithQuit
variable (s : State) (n_quit : Bool)

@[simp] theorem State.withQuit_v : (s.withQuit n_quit).v = s.v := rfl
@[simp] theorem State.withQuit_i : (s.withQuit n_quit).i = s.i := rfl
@[simp] theorem State.withQuit_pc : (s.withQuit n_quit).pc = s.pc := rfl
@[simp] theorem State.withQuit_stack : (s.withQuit n_quit).stack = s.stack := rfl
@[simp] theorem State.withQuit_sp : (s.withQuit n_quit).sp = s.sp := rfl
@[simp] theorem State.withQuit_dt : (s.withQuit n_quit).dt = s.dt := rfl
@[simp] theorem State.withQuit_st : (s.withQuit n_quit).st = s.st := rfl
@[simp] theorem State.withQuit_mem : (s.withQuit n_quit).mem = s.mem := rfl
@[simp] theorem State.withQuit_keys : (s.withQuit n_quit).keys = s.keys := rfl
@[simp] theorem State.withQuit_awaiting : (s.withQuit n_quit).awaiting = s.awaiting := rfl
@[simp] theorem State.withQuit_target : (s.withQuit n_quit).target = s.target := rfl
@[simp] theorem State.withQuit_hires : (s.withQuit n_quit).hires = s.hires := rfl
@[simp] theorem State.withQuit_fb : (s.withQuit n_quit).fb = s.fb := rfl
@[simp] theorem State.withQuit_changed : (s.withQuit n_quit).changed = s.changed := rfl
@[simp] theorem State.withQuit_rpl : (s.withQuit n_quit).rpl = s.rpl := rfl
@[simp] theorem State.withQuit_quit : (s.withQuit n_quit).quit = n_quit := rfl
@[simp] theorem State.withQuit_fault : (s.withQuit n_quit).fault = s.fault := rfl
@[simp] theorem State.withQuit_cfg : (s.withQuit n_quit).cfg = s.cfg := rfl
@[simp] theorem State.withQuit_draws : (s.withQuit n_quit).draws = s.draws := rfl
@[simp] theorem State.withQuit_reports : (s.withQuit n_quit).reports = s.reports := rfl

end WithQuit

/-! ### `State.withFault` -/

section WithFault
variable (s : State) (n_fault : Option Fault)

@[simp] theorem State.withFault_v : (s.withFault n_fault).v = s.v := rfl
@[simp] theorem State.withFault_i : (s.withFault n_fault).i = s.i := rfl
@[simp] theorem State.withFault_pc : (s.withFault n_fault).pc = s.pc := rfl
@[simp] theorem State.withFault_stack : (s.withFault n_fault).stack = s.stack := rfl
@[simp] theorem State.withFault_sp : (s.withFault n_fault).sp = s.sp := rfl
@[simp] theorem State.withFault_dt : (s.withFault n_fault).dt = s.dt := rfl
@[simp] theorem State.withFault_st : (s.withFault n_fault).st = s.st := rfl
@[simp] theorem State.withFault_mem : (s.withFault n_fault).mem = s.mem := rfl
@[simp] theorem State.withFault_keys : (s.withFault n_fault).keys = s.keys := rfl
@[simp] theorem State.withFault_awaiting : (s.withFault n_fault).awaiting = s.awaiting := rfl
@[simp] theorem State.withFault_target : (s.withFault n_fault).target = s.target := rfl
@[simp] theorem State.withFault_hires : (s.withFault n_fault).hires = s.hires := rfl
@[simp] theorem State.withFault_fb : (s.withFault n_fault).fb = s.fb := rfl
@[simp] theorem State.withFault_changed : (s.withFault n_fault).changed = s.changed := rfl
@[simp] theorem State.withFault_rpl : (s.withFault n_fault).rpl = s.rpl := rfl
@[simp] theorem State.withFault_quit : (s.withFault n_fault).quit = s.quit := rfl
@[simp] theorem State.withFault_fault : (s.withFault n_fault).fault = n_fault := rfl
@[simp] theorem State.withFault_cfg : (s.withFault n_fault).cfg = s.cfg := rfl
@[simp] theorem State.withFault_draws : (s.withFault n_fault).draws = s.draws := rfl
@[simp] theorem State.withFault_reports : (s.withFault n_fault).reports = s.reports := rfl

end WithFault

/-! ### `State.withDraws` -/

section WithDraws
variable (s : State) (n_draws : Nat)

@[simp] theorem State.withDraws_v : (s.withDraws n_draws).v = s.v := rfl
@[simp] theorem State.withDraws_i : (s.withDraws n_draws).i = s.i := rfl
@[simp] theorem State.withDraws_pc : (s.withDraws n_draws).pc = s.pc := rfl
@[simp] theorem State.withDraws_stack : (s.withDraws n_draws).stack = s.stack := rfl
@[simp] theorem State.withDraws_sp : (s.withDraws n_draws).sp = s.sp := rfl
@[simp] theorem State.withDraws_dt : (s.withDraws n_draws).dt = s.dt := rfl
@[simp] theorem State.withDraws_st : (s.withDraws n_draws).st = s.st := rfl
@[simp] theorem State.withDraws_mem : (s.withDraws n_draws).mem = s.mem := rfl
@[simp] theorem State.withDraws_keys : (s.withDraws n_draws).keys = s.keys := rfl
@[simp] theorem State.withDraws_awaiting : (s.withDraws n_draws).awaiting = s.awaiting := rfl
@[simp] theorem State.withDraws_target : (s.withDraws n_draws).target = s.target := rfl
@[simp] theorem State.withDraws_hires : (s.withDraws n_draws).hires = s.hires := rfl
@[simp] theorem State.withDraws_fb : (s.withDraws n_draws).fb = s.fb := rfl
@[simp] theorem State.withDraws_changed : (s.withDraws n_draws).changed = s.changed := rfl
@[simp] theorem State.withDraws_rpl : (s.withDraws n_draws).rpl = s.rpl := rfl
@[simp] theorem State.withDraws_quit : (s.withDraws n_draws).quit = s.quit := rfl
@[simp] theorem State.withDraws_fault : (s.withDraws n_draws).fault = s.fault := rfl
@[simp] theorem State.withDraws_cfg : (s.withDraws n_draws).cfg = s.cfg := rfl
@[simp] theorem State.withDraws_draws : (s.withDraws n_draws).draws = n_draws := rfl
@[simp] theorem State.withDraws_reports : (s.withDraws n_draws).reports = s.reports := rfl

end WithDraws

/-! ### `State.withReports` -/

section WithReports
variable (s : State) (n_reports : List Report)

@[simp] theorem State.withReports_v : (s.withReports n_reports).v = s.v := rfl
@[simp] theorem State.withReports_i : (s.withReports n_reports).i = s.i := rfl
@[simp] theorem State.withReports_pc : (s.withReports n_reports).pc = s.pc := rfl
@[simp] theorem State.withReports_stack : (s.withReports n_reports).stack = s.stack := rfl
@[simp] theorem State.withReports_sp : (s.withReports n_reports).sp = s.sp := rfl
@[simp] theorem State.withReports_dt : (s.withReports n_reports).dt = s.dt := rfl
@[simp] theorem State.withReports_st : (s.withReports n_reports).st = s.st := rfl
@[simp] theorem State.withReports_mem : (s.withReports n_reports).mem = s.mem := rfl
@[simp] theorem State.withReports_keys : (s.withReports n_reports).keys = s.keys := rfl
@[simp] theorem State.withReports_awaiting : (s.withReports n_reports).awaiting = s.awaiting := rfl
@[simp] theorem State.withReports_target : (s.withReports n_reports).target = s.target := rfl
@[simp] theorem State.withReports_hires : (s.withReports n_reports).hires = s.hires := rfl
@[simp] theorem State.withReports_fb : (s.withReports n_reports).fb = s.fb := rfl
@[simp] theorem State.withReports_changed : (s.withReports n_reports).changed = s.changed := rfl
@[simp] theorem State.withReports_rpl : (s.withReports n_reports).rpl = s.rpl := rfl
@[simp] theorem State.withReports_quit : (s.withReports n_reports).quit = s.quit := rfl
@[simp] theorem State.withReports_fault : (s.withReports n_reports).fault = s.fault := rfl
@[simp] theorem State.withReports_cfg : (s.withReports n_reports).cfg = s.cfg := rfl
@[simp] theorem State.withReports_draws : (s.withReports n_reports).draws = s.draws := rfl
@[simp] theorem State.withReports_reports : (s.withReports n_reports).reports = n_reports := rfl

end WithReports

end Sys2Proof.Machine
end

