-- ==== Sys2Proof/Laws/Ops.lean ====
section
/-! SUPPORT. One law per shared operation over registers and memory: what it answers and what it leaves alone. -/

namespace Sys2Proof.Machine

/-! ### General registers -/

/-- Reading register `r` after register `x` is written. -/
theorem State.getV_setV (s : State) (x r : Nibble) (b : Byte) :
    (s.setV x b).getV r = if r = x then b else s.getV r := by
  simp only [State.getV, State.setV, State.withV_v, Vector.getElem_set, BitVec.toNat_inj, eq_comm (a := x)]

@[simp] theorem State.getV_setV_same (s : State) (x : Nibble) (b : Byte) : (s.setV x b).getV x = b := by
  simp [State.getV_setV]

theorem State.getV_setV_of_ne (s : State) {x r : Nibble} (b : Byte) (h : r ≠ x) : (s.setV x b).getV r = s.getV r := by
  simp [State.getV_setV, h]

/-- A register write changes the register file alone. -/
theorem State.setV_eq (s : State) (x : Nibble) (b : Byte) : s.setV x b = { s with v := (s.setV x b).v } := rfl

/-- A run of register writes changes the register file alone. -/
theorem State.setRegsFrom_eq (s : State) (k : Nat) (bs : List Byte) :
    s.setRegsFrom k bs = { s with v := (s.setRegsFrom k bs).v } := by
  induction bs generalizing s k with
  | nil => rfl
  | cons b bs ih =>
    rw [State.setRegsFrom, ih]
    rfl

/-- What a register holds after a run of register writes that stays below 16. -/
theorem State.getV_setRegsFrom (s : State) (k : Nat) (bs : List Byte) (h : k + bs.length ≤ 16) (r : Nibble) :
    (s.setRegsFrom k bs).getV r = if k ≤ r.toNat then (bs[r.toNat - k]?).getD (s.getV r) else s.getV r := by
  induction bs generalizing s k with
  | nil => simp [State.setRegsFrom]
  | cons b bs ih =>
    simp only [List.length_cons] at h
    rw [State.setRegsFrom, ih _ _ (by omega), State.getV_setV]
    have hr := r.isLt
    have hk : r = BitVec.ofNat 4 k ↔ r.toNat = k := by
      constructor
      · rintro rfl
        simp only [BitVec.toNat_ofNat]
        omega
      · rintro rfl
        simp
    rcases Nat.lt_trichotomy r.toNat k with hlt | heq | hgt
    · rw [if_neg (by omega), if_neg (by rw [hk]; omega), if_neg (by omega)]
    · rw [if_neg (by omega), if_pos (hk.mpr heq), if_pos (by omega)]
      simp [heq]
    · rw [if_pos (by omega), if_neg (by rw [hk]; omega), if_pos (by omega)]
      obtain ⟨j, hj⟩ : ∃ j, r.toNat - k = j + 1 := ⟨r.toNat - k - 1, by omega⟩
      rw [hj, show r.toNat - (k + 1) = j by omega]
      simp

@[simp] theorem State.length_regsFrom (s : State) (k n : Nat) : (s.regsFrom k n).length = n := by
  induction n generalizing k with
  | zero => rfl
  | succ n ih => simp [State.regsFrom, ih]

/-- The `j`-th of a run of register values. -/
theorem State.getElem?_regsFrom (s : State) (k n j : Nat) (h : j < n) :
    (s.regsFrom k n)[j]? = some (s.getV (BitVec.ofNat 4 (k + j))) := by
  induction n generalizing k j with
  | zero => omega
  | succ n ih =>
    cases j with
    | zero => simp [State.regsFrom]
    | succ j =>
      simp only [State.regsFrom, List.getElem?_cons_succ]
      rw [ih _ _ (by omega)]
      congr 3
      omega

/-! ### Bytes of memory -/

/-- Reading a byte after a byte is stored, in canonical memory. -/
theorem State.readByte_writeByte (s : State) (h : Memory.wf (resetByte s.cfg) s.mem = true) (a a' : Nat) (b : Byte) :
    (s.writeByte a b).readByte a' = if a' = a then b else s.readByte a' := by
  simp only [State.readByte, State.writeByte, State.withMem_cfg, State.withMem_mem]
  split
  · rename_i heq
    rw [heq, Memory.read_write_same h]
  · rename_i hne
    rw [Memory.read_write_other hne]

/-- A byte stored at an address that exists keeps memory canonical. -/
theorem State.wf_writeByte (s : State) (h : Memory.wf (resetByte s.cfg) s.mem = true) {a : Nat} (ha : a < memSize)
    (b : Byte) : Memory.wf (resetByte (s.writeByte a b).cfg) (s.writeByte a b).mem = true :=
  Memory.wf_write h ha

/-- A run of stores changes memory alone. -/
theorem State.storeBytes_eq (s : State) (a : Nat) (bs : List Byte) :
    s.storeBytes a bs = { s with mem := (s.storeBytes a bs).mem } := by
  induction bs generalizing s a with
  | nil => rfl
  | cons b bs ih =>
    rw [State.storeBytes, ih]
    rfl

@[simp] theorem State.storeBytes_cfg (s : State) (a : Nat) (bs : List Byte) : (s.storeBytes a bs).cfg = s.cfg := by
  rw [State.storeBytes_eq]

/-- What memory reads after a run of stores within it. -/
theorem State.readByte_storeBytes (s : State) (h : Memory.wf (resetByte s.cfg) s.mem = true) (a : Nat) (bs : List Byte)
    (ha : a + bs.length ≤ memSize) (a' : Nat) :
    (s.storeBytes a bs).readByte a' = if a ≤ a' then (bs[a' - a]?).getD (s.readByte a') else s.readByte a' := by
  induction bs generalizing s a with
  | nil => simp [State.storeBytes]
  | cons b bs ih =>
    simp only [List.length_cons] at ha
    rw [State.storeBytes, ih _ (s.wf_writeByte h (by omega) b) _ (by omega), s.readByte_writeByte h]
    rcases Nat.lt_trichotomy a' a with hlt | heq | hgt
    · rw [if_neg (by omega), if_neg (by omega), if_neg (by omega)]
    · rw [if_neg (by omega), if_pos heq, if_pos (by omega)]
      simp [heq]
    · rw [if_pos (by omega), if_neg (by omega), if_pos (by omega)]
      obtain ⟨j, hj⟩ : ∃ j, a' - a = j + 1 := ⟨a' - a - 1, by omega⟩
      rw [hj, show a' - (a + 1) = j by omega]
      simp

/-- A run of stores within memory keeps it canonical. -/
theorem State.wf_storeBytes (s : State) (h : Memory.wf (resetByte s.cfg) s.mem = true) (a : Nat) (bs : List Byte)
    (ha : a + bs.length ≤ memSize) : Memory.wf (resetByte s.cfg) (s.storeBytes a bs).mem = true := by
  induction bs generalizing s a with
  | nil => exact h
  | cons b bs ih =>
    simp only [List.length_cons] at ha
    exact ih (s.writeByte a b) (s.wf_writeByte h (by omega) b) (a + 1) (by omega)

/-- A partly stored run changes memory alone (log 4). -/
theorem State.storeSome_eq (d : Nat) (s : State) (a k : Nat) (bs : List Byte) :
    State.storeSome d s a k bs = { s with mem := (State.storeSome d s a k bs).mem } := by
  induction bs generalizing s a k with
  | nil => rfl
  | cons b bs ih =>
    rw [State.storeSome, ih]
    split <;> rfl

/-- A partly stored run within memory keeps it canonical (log 4). -/
theorem State.wf_storeSome (d : Nat) (s : State) (h : Memory.wf (resetByte s.cfg) s.mem = true) (a k : Nat)
    (bs : List Byte) (ha : a + bs.length ≤ memSize) :
    Memory.wf (resetByte s.cfg) (State.storeSome d s a k bs).mem = true := by
  induction bs generalizing s a k with
  | nil => exact h
  | cons b bs ih =>
    simp only [List.length_cons] at ha
    rw [State.storeSome]
    split
    · exact ih (s.writeByte a b) (s.wf_writeByte h (by omega) b) (a + 1) (k + 1) (by omega)
    · exact ih s h (a + 1) (k + 1) (by omega)

/-- A partly loaded run changes the register file alone (log 4). -/
theorem State.loadSome_eq (d : Nat) (s : State) (k : Nat) (bs : List Byte) :
    State.loadSome d s k bs = { s with v := (State.loadSome d s k bs).v } := by
  induction bs generalizing s k with
  | nil => rfl
  | cons b bs ih =>
    rw [State.loadSome, ih]
    split <;> rfl

/-! ### Block transfers -/

/-- A multi-byte read answers the bytes when all addresses exist, and else the fatal condition at the first that does
not (R72, R81). -/
theorem State.readBlock_eq (s : State) (a n : Nat) :
    s.readBlock a n =
      match firstOutOfRange a n with
      | none => .ok (s.peekBlock a n)
      | some bad => .error (.memoryOutOfRange bad) := by
  induction n generalizing a with
  | zero => simp [State.readBlock, State.peekBlock, firstOutOfRange]
  | succ n ih =>
    by_cases ha : a < memSize
    · by_cases hn : n = 0 ∨ a + 1 + n ≤ memSize
      · have h1 : firstOutOfRange (a + 1) n = none := by rw [firstOutOfRange, if_pos hn]
        have h2 : firstOutOfRange a (n + 1) = none := by rw [firstOutOfRange, if_pos (by omega)]
        simp [State.readBlock, State.memRead, ha, ih, h1, h2, State.peekBlock]
      · have h1 : firstOutOfRange (a + 1) n = some (max (a + 1) memSize) := by rw [firstOutOfRange, if_neg hn]
        have h2 : firstOutOfRange a (n + 1) = some (max a memSize) := by rw [firstOutOfRange, if_neg (by omega)]
        rw [show max (a + 1) memSize = max a memSize by omega] at h1
        simp [State.readBlock, State.memRead, ha, ih, h1, h2]
    · have h2 : firstOutOfRange a (n + 1) = some (max a memSize) := by rw [firstOutOfRange, if_neg (by omega)]
      rw [show max a memSize = a by omega] at h2
      simp [State.readBlock, State.memRead, ha, h2]

@[simp] theorem State.length_peekBlock (s : State) (a n : Nat) : (s.peekBlock a n).length = n := by
  induction n generalizing a with
  | zero => rfl
  | succ n ih => simp [State.peekBlock, ih]

/-- The `j`-th byte of a run of memory. -/
theorem State.getElem?_peekBlock (s : State) (a n j : Nat) (h : j < n) :
    (s.peekBlock a n)[j]? = some (s.readByte (a + j)) := by
  induction n generalizing a j with
  | zero => omega
  | succ n ih =>
    cases j with
    | zero => simp [State.peekBlock]
    | succ j =>
      simp only [State.peekBlock, List.getElem?_cons_succ]
      rw [ih _ _ (by omega)]
      congr 2
      omega

/-- A multi-byte store that answers `.ok` fits memory and stored every byte (R80). -/
theorem State.storeBlock_ok {s t : State} {a : Nat} {bs : List Byte} (h : s.storeBlock a bs = .ok t) :
    (bs.length = 0 ∨ a + bs.length ≤ memSize) ∧ t = s.storeBytes a bs := by
  unfold State.storeBlock firstOutOfRange at h
  by_cases hb : bs.length = 0 ∨ a + bs.length ≤ memSize
  · rw [if_pos hb] at h
    exact ⟨hb, (Except.ok.inj h).symm⟩
  · rw [if_neg hb] at h
    cases h

/-- A multi-byte store that answers `.error` runs off memory and has recorded the first address that does (R81); apart
from memory and the count of draws, nothing else is written. -/
theorem State.storeBlock_error {s t : State} {a : Nat} {bs : List Byte} (h : s.storeBlock a bs = .error t) :
    bs.length ≠ 0 ∧ memSize < a + bs.length ∧
      t = { s with mem := t.mem, draws := s.draws + 1, fault := some (.memoryOutOfRange (max a memSize)) } := by
  unfold State.storeBlock firstOutOfRange at h
  by_cases hb : bs.length = 0 ∨ a + bs.length ≤ memSize
  · rw [if_pos hb] at h
    cases h
  · rw [if_neg hb] at h
    refine ⟨by omega, by omega, ?_⟩
    rw [← Except.error.inj h, State.storeSome_eq]
    rfl

/-- A multi-byte load that answers `.ok` has read every byte (R80). -/
theorem State.loadBlock_ok {s t : State} {a n : Nat} (h : s.loadBlock a n = .ok t) :
    (n = 0 ∨ a + n ≤ memSize) ∧ t = s.setRegsFrom 0 (s.peekBlock a n) := by
  unfold State.loadBlock at h
  rw [State.readBlock_eq] at h
  unfold firstOutOfRange at h
  by_cases hb : n = 0 ∨ a + n ≤ memSize
  · rw [if_pos hb] at h
    exact ⟨hb, (Except.ok.inj h).symm⟩
  · rw [if_neg hb] at h
    cases h

/-- A multi-byte load that answers `.error` runs off memory and has recorded the first address that does (R81); apart
from the general registers and the count of draws, nothing else is written. -/
theorem State.loadBlock_error {s t : State} {a n : Nat} (h : s.loadBlock a n = .error t) :
    n ≠ 0 ∧ memSize < a + n ∧
      t = { s with v := t.v, draws := s.draws + 1, fault := some (.memoryOutOfRange (max a memSize)) } := by
  unfold State.loadBlock at h
  rw [State.readBlock_eq] at h
  unfold firstOutOfRange at h
  by_cases hb : n = 0 ∨ a + n ≤ memSize
  · rw [if_pos hb] at h
    cases h
  · rw [if_neg hb] at h
    refine ⟨by omega, by omega, ?_⟩
    rw [← Except.error.inj h, State.loadSome_eq]
    rfl

/-! ### Block transfers, by what they answer -/

/-- Addresses that all exist. -/
theorem firstOutOfRange_none {a n : Nat} (h : n = 0 ∨ a + n ≤ memSize) : firstOutOfRange a n = none := if_pos h

/-- The first address that does not exist (R81). -/
theorem firstOutOfRange_some {a n : Nat} (h0 : n ≠ 0) (h : memSize < a + n) :
    firstOutOfRange a n = some (max a memSize) := if_neg (by omega)

/-- A store that fits memory. -/
theorem State.storeBlock_of_fits (s : State) {a : Nat} {bs : List Byte} (h : bs.length = 0 ∨ a + bs.length ≤ memSize) :
    s.storeBlock a bs = .ok (s.storeBytes a bs) := by
  rw [State.storeBlock, firstOutOfRange_none h]

/-- A store that runs off memory (R81). -/
theorem State.storeBlock_of_runs_off (s : State) {a : Nat} {bs : List Byte} (h0 : bs.length ≠ 0)
    (h : memSize < a + bs.length) :
    ∃ t, s.storeBlock a bs = .error t ∧ t.fault = some (.memoryOutOfRange (max a memSize)) := by
  rw [State.storeBlock, firstOutOfRange_some h0 h]
  exact ⟨_, rfl, rfl⟩

/-- A load that fits memory. -/
theorem State.loadBlock_of_fits (s : State) {a n : Nat} (h : n = 0 ∨ a + n ≤ memSize) :
    s.loadBlock a n = .ok (s.setRegsFrom 0 (s.peekBlock a n)) := by
  rw [State.loadBlock, State.readBlock_eq, firstOutOfRange_none h]

/-- A load that runs off memory (R81). -/
theorem State.loadBlock_of_runs_off (s : State) {a n : Nat} (h0 : n ≠ 0) (h : memSize < a + n) :
    ∃ t, s.loadBlock a n = .error t ∧ t.fault = some (.memoryOutOfRange (max a memSize)) := by
  rw [State.loadBlock, State.readBlock_eq, firstOutOfRange_some h0 h]
  exact ⟨_, rfl, rfl⟩

/-- A run of register writes leaves every register at or above its end (log 4: also a partly loaded run). -/
theorem State.getV_loadSome_above (d : Nat) (s : State) (k : Nat) (bs : List Byte) (r : Nibble)
    (h : k + bs.length ≤ r.toNat) : (State.loadSome d s k bs).getV r = s.getV r := by
  induction bs generalizing s k with
  | nil => rfl
  | cons b bs ih =>
    simp only [List.length_cons] at h
    rw [State.loadSome, ih _ _ (by omega)]
    split
    · apply State.getV_setV_of_ne
      rintro rfl
      have := Nat.mod_le k 16
      simp at h
      omega
    · rfl

/-! ### RPL flags -/

/-- Saving registers to the RPL bytes changes them alone. -/
theorem State.saveRplFrom_eq (s : State) (k n : Nat) :
    s.saveRplFrom k n = { s with rpl := (s.saveRplFrom k n).rpl } := by
  induction n generalizing s k with
  | zero => rfl
  | succ n ih =>
    rw [State.saveRplFrom, ih]
    rfl

@[simp] theorem State.length_rplFrom (s : State) (k n : Nat) : (s.rplFrom k n).length = n := by
  induction n generalizing k with
  | zero => rfl
  | succ n ih => simp [State.rplFrom, ih]

/-- The `j`-th of a run of RPL bytes. -/
theorem State.getElem?_rplFrom (s : State) (k n j : Nat) (h : j < n) :
    (s.rplFrom k n)[j]? = some (s.getRpl (k + j)) := by
  induction n generalizing k j with
  | zero => omega
  | succ n ih =>
    cases j with
    | zero => simp [State.rplFrom]
    | succ j =>
      simp only [State.rplFrom, List.getElem?_cons_succ]
      rw [ih _ _ (by omega)]
      congr 2
      omega

/-- What an RPL byte holds after registers are saved to a run of them. -/
theorem State.rpl_saveRplFrom (s : State) (k n : Nat) (h : k + n ≤ 8) (j : Fin 8) :
    (s.saveRplFrom k n).rpl[j] =
      if k ≤ j.val ∧ j.val < k + n then s.getV (BitVec.ofNat 4 j.val) else s.rpl[j] := by
  induction n generalizing s k with
  | zero =>
    simp [State.saveRplFrom]
  | succ n ih =>
    rw [State.saveRplFrom, ih _ _ (by omega)]
    change (if _ then s.getV _ else _) = _
    rcases Nat.lt_trichotomy j.val k with h1 | h1 | h1
    · rw [if_neg (by omega), if_neg (by omega)]
      simp [State.setRpl]
      rw [Vector.getElem_setIfInBounds]
      simp
      omega
    · rw [if_neg (by omega), if_pos (by omega)]
      subst h1
      simp [State.setRpl]
    · by_cases h2 : j.val < k + (n + 1)
      · rw [if_pos (by omega), if_pos (by omega)]
      · rw [if_neg (by omega), if_neg (by omega)]
        simp [State.setRpl]
        rw [Vector.getElem_setIfInBounds]
        simp
        omega

/-! ### The mode gate and the events -/

/-- A SCHIP-only effect runs in SCHIP mode. -/
theorem State.schipOnly_of_schip {s : State} (h : s.cfg.schipMode = true) (i : Instr) (f : State → State) :
    s.schipOnly i f = f s := by
  simp [State.schipOnly, h]

/-- A SCHIP-only word in base mode is a report and nothing else (R113). -/
theorem State.schipOnly_of_base {s : State} (h : s.cfg.schipMode = false) (i : Instr) (f : State → State) :
    s.schipOnly i f = s.report (.schipOnlyOpcode (encode i)) := by
  simp [State.schipOnly, h]

/-- A raise records the condition and writes nothing else (R350). -/
theorem State.raise_eq (s : State) (f : Fault) : s.raise f = { s with fault := some f } := rfl

/-- A report adds one event and writes nothing else (R356). -/
theorem State.report_eq (s : State) (r : Report) : s.report r = { s with reports := s.reports ++ [r] } := rfl

end Sys2Proof.Machine
end

