-- ==== Sys2Proof/Laws/PerInstr.lean ====
section
/-! SUPPORT. Statements made once per instruction. Family `TableRow`: the instruction's word has exactly the fixed bits its
row of spec/opcode_table.json gives (match under mask), read from the table independently of the encoder. -/

namespace Sys2Proof.Laws

/-- The row's mask and match in spec/opcode_table.json. -/
def tableRow : Instr → Word × Word
  | .cls => (0xFFFF, 0x00E0)
  | .ret => (0xFFFF, 0x00EE)
  | .jp _ => (0xF000, 0x1000)
  | .call _ => (0xF000, 0x2000)
  | .seImm _ _ => (0xF000, 0x3000)
  | .sneImm _ _ => (0xF000, 0x4000)
  | .seReg _ _ => (0xF00F, 0x5000)
  | .ldImm _ _ => (0xF000, 0x6000)
  | .addImm _ _ => (0xF000, 0x7000)
  | .ldReg _ _ => (0xF00F, 0x8000)
  | .orReg _ _ => (0xF00F, 0x8001)
  | .andReg _ _ => (0xF00F, 0x8002)
  | .xorReg _ _ => (0xF00F, 0x8003)
  | .addReg _ _ => (0xF00F, 0x8004)
  | .sub _ _ => (0xF00F, 0x8005)
  | .shr _ _ => (0xF00F, 0x8006)
  | .subn _ _ => (0xF00F, 0x8007)
  | .shl _ _ => (0xF00F, 0x800E)
  | .sneReg _ _ => (0xF00F, 0x9000)
  | .ldI _ => (0xF000, 0xA000)
  | .jpV0 _ => (0xF000, 0xB000)
  | .rnd _ _ => (0xF000, 0xC000)
  | .drw _ _ _ => (0xF000, 0xD000)
  | .skp _ => (0xF0FF, 0xE09E)
  | .sknp _ => (0xF0FF, 0xE0A1)
  | .ldVxDT _ => (0xF0FF, 0xF007)
  | .ldVxK _ => (0xF0FF, 0xF00A)
  | .ldDTVx _ => (0xF0FF, 0xF015)
  | .ldSTVx _ => (0xF0FF, 0xF018)
  | .addI _ => (0xF0FF, 0xF01E)
  | .ldF _ => (0xF0FF, 0xF029)
  | .ldHF _ => (0xF0FF, 0xF030)
  | .ldB _ => (0xF0FF, 0xF033)
  | .storeRegs _ => (0xF0FF, 0xF055)
  | .loadRegs _ => (0xF0FF, 0xF065)
  | .scd _ => (0xFFF0, 0x00C0)
  | .scr => (0xFFFF, 0x00FB)
  | .scl => (0xFFFF, 0x00FC)
  | .exit => (0xFFFF, 0x00FD)
  | .low => (0xFFFF, 0x00FE)
  | .high => (0xFFFF, 0x00FF)
  | .saveRpl _ => (0xF0FF, 0xF075)
  | .loadRpl _ => (0xF0FF, 0xF085)

/-- The statement about one instruction: its word under the row's mask is the row's match. -/
def TableRow.Statement (i : Instr) : Prop := encode i &&& (tableRow i).1 = (tableRow i).2

/-! Masking each format keeps the fixed fields and clears the operands. -/

theorem wordADDR_and_wordADDR (a b : Nibble) (nnn mmm : Addr12) :
    wordADDR a nnn &&& wordADDR b mmm = wordADDR (a &&& b) (nnn &&& mmm) :=
  BitVec.and_append

theorem wordXKK_and_wordXKK (a b x x' : Nibble) (kk kk' : Byte) :
    wordXKK a x kk &&& wordXKK b x' kk' = wordXKK (a &&& b) (x &&& x') (kk &&& kk') :=
  BitVec.and_append.trans (congrArg (fun v : BitVec 8 => (v ++ (kk &&& kk') : BitVec 16)) BitVec.and_append)

theorem wordXYN_and_wordXYN (a b x x' y y' n n' : Nibble) :
    wordXYN a x y n &&& wordXYN b x' y' n' = wordXYN (a &&& b) (x &&& x') (y &&& y') (n &&& n') :=
  BitVec.and_append.trans (congrArg (fun v : BitVec 12 => (v ++ (n &&& n') : BitVec 16))
    (BitVec.and_append.trans (congrArg (fun v : BitVec 8 => (v ++ (y &&& y') : BitVec 12)) BitVec.and_append)))

theorem nibble_and_F (a : Nibble) : a &&& 0xF = a := BitVec.and_allOnes
theorem nibble_and_0 (a : Nibble) : a &&& 0x0 = 0 := BitVec.and_zero

theorem wordADDR_and (a : Nibble) (nnn : Addr12) : wordADDR a nnn &&& 0xF000 = wordADDR a 0 := by
  have h := wordADDR_and_wordADDR a 0xF nnn 0
  rwa [nibble_and_F, show nnn &&& 0 = 0 from BitVec.and_zero] at h

theorem wordXKK_and (a x : Nibble) (kk : Byte) : wordXKK a x kk &&& 0xF000 = wordXKK a 0 0 := by
  have h := wordXKK_and_wordXKK a 0xF x 0 kk 0
  rwa [nibble_and_F, nibble_and_0, show kk &&& 0 = 0 from BitVec.and_zero] at h

theorem wordXKK_and_kk (a x : Nibble) (kk : Byte) : wordXKK a x kk &&& 0xF0FF = wordXKK a 0 kk := by
  have h := wordXKK_and_wordXKK a 0xF x 0 kk 0xFF
  rwa [nibble_and_F, nibble_and_0, show kk &&& 0xFF = kk from BitVec.and_allOnes] at h

theorem wordXYN_and (a x y n : Nibble) : wordXYN a x y n &&& 0xF000 = wordXYN a 0 0 0 := by
  have h := wordXYN_and_wordXYN a 0xF x 0 y 0 n 0
  rwa [nibble_and_F, nibble_and_0, nibble_and_0, nibble_and_0] at h

theorem wordXYN_and_n (a x y n : Nibble) : wordXYN a x y n &&& 0xF00F = wordXYN a 0 0 n := by
  have h := wordXYN_and_wordXYN a 0xF x 0 y 0 n 0xF
  rwa [nibble_and_F, nibble_and_F, nibble_and_0, nibble_and_0] at h

theorem wordXYN_and_axy (a x y n : Nibble) : wordXYN a x y n &&& 0xFFF0 = wordXYN a x y 0 := by
  have h := wordXYN_and_wordXYN a 0xF x 0xF y 0xF n 0
  rwa [nibble_and_F, nibble_and_F, nibble_and_F, nibble_and_0] at h

/-! One lemma per constructor. -/

theorem TableRow.cls : TableRow.Statement .cls := rfl
theorem TableRow.ret : TableRow.Statement .ret := rfl
theorem TableRow.jp (nnn : Addr12) : TableRow.Statement (.jp nnn) := wordADDR_and _ _
theorem TableRow.call (nnn : Addr12) : TableRow.Statement (.call nnn) := wordADDR_and _ _
theorem TableRow.seImm (x : Nibble) (kk : Byte) : TableRow.Statement (.seImm x kk) := wordXKK_and _ _ _
theorem TableRow.sneImm (x : Nibble) (kk : Byte) : TableRow.Statement (.sneImm x kk) := wordXKK_and _ _ _
theorem TableRow.seReg (x : Nibble) (y : Nibble) : TableRow.Statement (.seReg x y) := wordXYN_and_n _ _ _ _
theorem TableRow.ldImm (x : Nibble) (kk : Byte) : TableRow.Statement (.ldImm x kk) := wordXKK_and _ _ _
theorem TableRow.addImm (x : Nibble) (kk : Byte) : TableRow.Statement (.addImm x kk) := wordXKK_and _ _ _
theorem TableRow.ldReg (x : Nibble) (y : Nibble) : TableRow.Statement (.ldReg x y) := wordXYN_and_n _ _ _ _
theorem TableRow.orReg (x : Nibble) (y : Nibble) : TableRow.Statement (.orReg x y) := wordXYN_and_n _ _ _ _
theorem TableRow.andReg (x : Nibble) (y : Nibble) : TableRow.Statement (.andReg x y) := wordXYN_and_n _ _ _ _
theorem TableRow.xorReg (x : Nibble) (y : Nibble) : TableRow.Statement (.xorReg x y) := wordXYN_and_n _ _ _ _
theorem TableRow.addReg (x : Nibble) (y : Nibble) : TableRow.Statement (.addReg x y) := wordXYN_and_n _ _ _ _
theorem TableRow.sub (x : Nibble) (y : Nibble) : TableRow.Statement (.sub x y) := wordXYN_and_n _ _ _ _
theorem TableRow.shr (x : Nibble) (y : Nibble) : TableRow.Statement (.shr x y) := wordXYN_and_n _ _ _ _
theorem TableRow.subn (x : Nibble) (y : Nibble) : TableRow.Statement (.subn x y) := wordXYN_and_n _ _ _ _
theorem TableRow.shl (x : Nibble) (y : Nibble) : TableRow.Statement (.shl x y) := wordXYN_and_n _ _ _ _
theorem TableRow.sneReg (x : Nibble) (y : Nibble) : TableRow.Statement (.sneReg x y) := wordXYN_and_n _ _ _ _
theorem TableRow.ldI (nnn : Addr12) : TableRow.Statement (.ldI nnn) := wordADDR_and _ _
theorem TableRow.jpV0 (nnn : Addr12) : TableRow.Statement (.jpV0 nnn) := wordADDR_and _ _
theorem TableRow.rnd (x : Nibble) (kk : Byte) : TableRow.Statement (.rnd x kk) := wordXKK_and _ _ _
theorem TableRow.drw (x : Nibble) (y : Nibble) (n : Nibble) : TableRow.Statement (.drw x y n) := wordXYN_and _ _ _ _
theorem TableRow.skp (x : Nibble) : TableRow.Statement (.skp x) := wordXKK_and_kk _ _ _
theorem TableRow.sknp (x : Nibble) : TableRow.Statement (.sknp x) := wordXKK_and_kk _ _ _
theorem TableRow.ldVxDT (x : Nibble) : TableRow.Statement (.ldVxDT x) := wordXKK_and_kk _ _ _
theorem TableRow.ldVxK (x : Nibble) : TableRow.Statement (.ldVxK x) := wordXKK_and_kk _ _ _
theorem TableRow.ldDTVx (x : Nibble) : TableRow.Statement (.ldDTVx x) := wordXKK_and_kk _ _ _
theorem TableRow.ldSTVx (x : Nibble) : TableRow.Statement (.ldSTVx x) := wordXKK_and_kk _ _ _
theorem TableRow.addI (x : Nibble) : TableRow.Statement (.addI x) := wordXKK_and_kk _ _ _
theorem TableRow.ldF (x : Nibble) : TableRow.Statement (.ldF x) := wordXKK_and_kk _ _ _
theorem TableRow.ldHF (x : Nibble) : TableRow.Statement (.ldHF x) := wordXKK_and_kk _ _ _
theorem TableRow.ldB (x : Nibble) : TableRow.Statement (.ldB x) := wordXKK_and_kk _ _ _
theorem TableRow.storeRegs (x : Nibble) : TableRow.Statement (.storeRegs x) := wordXKK_and_kk _ _ _
theorem TableRow.loadRegs (x : Nibble) : TableRow.Statement (.loadRegs x) := wordXKK_and_kk _ _ _
theorem TableRow.scd (n : Nibble) : TableRow.Statement (.scd n) := wordXYN_and_axy _ _ _ _
theorem TableRow.scr : TableRow.Statement .scr := rfl
theorem TableRow.scl : TableRow.Statement .scl := rfl
theorem TableRow.exit : TableRow.Statement .exit := rfl
theorem TableRow.low : TableRow.Statement .low := rfl
theorem TableRow.high : TableRow.Statement .high := rfl
theorem TableRow.saveRpl (x : Nibble) : TableRow.Statement (.saveRpl x) := wordXKK_and_kk _ _ _
theorem TableRow.loadRpl (x : Nibble) : TableRow.Statement (.loadRpl x) := wordXKK_and_kk _ _ _

end Sys2Proof.Laws
end

