-- ==== Sys2Proof/Laws/Screen.lean ====
section
/-! SUPPORT. The laws of the framebuffer's pixels: what each operation does to each pixel, and that it keeps the grid. -/

namespace Sys2Proof.Machine

theorem Screen.wf_iff {w h : Nat} {fb : Screen} :
    Screen.wf w h fb = true ↔ fb.length = h ∧ ∀ row ∈ fb, row.length = w := by
  simp [Screen.wf]

/-- The blank grid has its dimensions. -/
@[simp] theorem Screen.wf_blank (w h : Nat) : Screen.wf w h (Screen.blank w h) = true := by
  simp [Screen.wf_iff, Screen.blank]

/-- Every pixel of a blank grid is 0. -/
@[simp] theorem Screen.pixel_blank (w h x y : Nat) : Screen.pixel (Screen.blank w h) x y = false := by
  simp only [Screen.pixel, Screen.blank, List.getD_eq_getElem?_getD, List.getElem?_replicate]
  split <;> simp [List.getElem?_replicate]
  split <;> simp

/-- A flip keeps the grid. -/
theorem Screen.wf_flip {w h x y : Nat} {fb : Screen} (hw : Screen.wf w h fb = true) :
    Screen.wf w h (Screen.flip fb x y) = true := by
  rw [Screen.wf_iff] at hw ⊢
  refine ⟨by simp [Screen.flip, hw.1], fun row hrow => ?_⟩
  obtain ⟨n, hn, rfl⟩ := List.mem_iff_getElem.mp hrow
  simp only [Screen.flip, List.getElem_modify]
  split
  · simp [hw.2 _ (List.getElem_mem _)]
  · exact hw.2 _ (List.getElem_mem _)

/-- A flip inverts its own pixel and leaves every other pixel alone. -/
theorem Screen.pixel_flip {w h x y : Nat} {fb : Screen} (hw : Screen.wf w h fb = true) (hx : x < w) (hy : y < h)
    (x' y' : Nat) :
    Screen.pixel (Screen.flip fb x y) x' y' = (Screen.pixel fb x' y' ^^ decide (x' = x ∧ y' = y)) := by
  rw [Screen.wf_iff] at hw
  have hlen : y < fb.length := by omega
  have hrow : (fb[y]'hlen).length = w := hw.2 _ (List.getElem_mem _)
  simp only [Screen.pixel, Screen.flip, List.getD_eq_getElem?_getD, List.getElem?_modify]
  by_cases hyy : y = y'
  · subst hyy
    by_cases hxx : x = x'
    · subst hxx
      simp [hlen, hrow, hx]
    · simp [hlen, hxx, Ne.symm hxx]
  · simp [hyy, Ne.symm hyy]

/-- A sprite row keeps the grid. -/
theorem Screen.wf_blitRow (w h : Nat) (b : Byte) (x0 py : Nat) (cs : List Nat) (fb : Screen) (hw : Screen.wf w h fb = true) :
    Screen.wf w h (Screen.blitRow w b x0 py cs fb).1 = true := by
  induction cs generalizing fb with
  | nil => exact hw
  | cons c cs ih =>
    rw [Screen.blitRow]; split
    · exact ih _ (Screen.wf_flip hw)
    · exact ih _ hw

/-- A sprite keeps the grid. -/
theorem Screen.wf_blit (w h x0 y0 r : Nat) (bs : List Byte) (fb : Screen) (hw : Screen.wf w h fb = true) :
    Screen.wf w h (Screen.blit w h x0 y0 r bs fb).1 = true := by
  induction bs generalizing fb r with
  | nil => exact hw
  | cons b bs ih => exact ih _ _ (Screen.wf_blitRow _ _ _ _ _ _ _ hw)

/-- What one sprite row does to each pixel, when its columns fall on different screen columns. -/
theorem Screen.pixel_blitRow (w h : Nat) (b : Byte) (x0 py : Nat) (cs : List Nat) (fb : Screen) (hw : Screen.wf w h fb = true)
    (hpos : 0 < w) (hpy : py < h)
    (hnd : cs.Pairwise (fun c c' => (x0 + c) % w ≠ (x0 + c') % w)) (px' py' : Nat) :
    Screen.pixel (Screen.blitRow w b x0 py cs fb).1 px' py' =
      (Screen.pixel fb px' py' ^^ cs.any (fun c => b.getLsbD (7 - c) && decide ((x0 + c) % w = px' ∧ py = py'))) := by
  induction cs generalizing fb with
  | nil => simp [Screen.blitRow]
  | cons c cs ih =>
    rw [List.pairwise_cons] at hnd
    rw [Screen.blitRow]
    split
    · rename_i hb
      rw [ih _ (Screen.wf_flip hw) hnd.2, Screen.pixel_flip hw (Nat.mod_lt _ hpos) hpy, List.any_cons, hb]
      by_cases hp : (x0 + c) % w = px' ∧ py = py'
      · have : cs.any (fun c => b.getLsbD (7 - c) && decide ((x0 + c) % w = px' ∧ py = py')) = false := by
          rw [List.any_eq_false]
          intro c' hc'
          have := hnd.1 c' hc'
          simp; intro _ e; exfalso; apply this; rw [e, hp.1]
        rw [this]; simp [hp.1, hp.2]
      · have : ¬ (px' = (x0 + c) % w ∧ py' = py) := by rintro ⟨rfl, rfl⟩; exact hp ⟨rfl, rfl⟩
        simp only [this, hp]; simp
    · rename_i hb
      rw [ih _ hw hnd.2]; simp [hb]

/-- When one sprite row reports an erased pixel. -/
theorem Screen.hit_blitRow (w h : Nat) (b : Byte) (x0 py : Nat) (cs : List Nat) (fb : Screen) (hw : Screen.wf w h fb = true)
    (hpos : 0 < w) (hpy : py < h)
    (hnd : cs.Pairwise (fun c c' => (x0 + c) % w ≠ (x0 + c') % w)) :
    (Screen.blitRow w b x0 py cs fb).2 = cs.any (fun c => b.getLsbD (7 - c) && Screen.pixel fb ((x0 + c) % w) py) := by
  induction cs generalizing fb with
  | nil => rfl
  | cons c cs ih =>
    rw [List.pairwise_cons] at hnd
    rw [Screen.blitRow]
    split
    · rename_i hb
      simp only []
      rw [ih _ (Screen.wf_flip hw) hnd.2, List.any_cons, hb]
      simp only [Bool.true_and]
      congr 1
      rw [Bool.eq_iff_iff, List.any_eq_true, List.any_eq_true]
      refine exists_congr fun c' => and_congr_right fun hc' => ?_
      rw [Screen.pixel_flip hw (Nat.mod_lt _ hpos) hpy]
      have := hnd.1 c' hc'
      simp [Ne.symm this]
    · rename_i hb
      rw [ih _ hw hnd.2]; simp [hb]

/-- Eight neighbouring columns fall on different screen columns of a grid at least 8 wide. -/
theorem Screen.distinct_cols (w x0 : Nat) (h : 8 ≤ w) : (List.range 8).Pairwise (fun c c' => (x0 + c) % w ≠ (x0 + c') % w) := by
  rw [List.pairwise_iff_getElem]
  intro i j hi hj hij
  simp at hi hj ⊢
  intro e
  have := Nat.sub_mod_eq_zero_of_mod_eq e.symm
  rw [show x0 + j - (x0 + i) = j - i by omega, Nat.mod_eq_of_lt (by omega)] at this
  omega

/-- What a sprite does to each pixel: an XOR with the sprite bit that falls on it (R252). -/
theorem Screen.pixel_blit (w h x0 y0 r : Nat) (bs : List Byte) (fb : Screen) (hw : Screen.wf w h fb = true) (h8 : 8 ≤ w) (hlen : bs.length ≤ h)
    (px py : Nat) :
    Screen.pixel (Screen.blit w h x0 y0 r bs fb).1 px py =
      (Screen.pixel fb px py ^^ (List.range bs.length).any (fun k => (List.range 8).any (fun c => ((bs[k]?).getD 0).getLsbD (7 - c) && decide ((x0 + c) % w = px ∧ (y0 + (r + k)) % h = py)))) := by
  induction bs generalizing fb r with
  | nil => simp [Screen.blit]
  | cons b bs ih =>
    simp only [List.length_cons] at hlen
    simp only [Screen.blit]
    rw [ih _ _ (Screen.wf_blitRow _ _ _ _ _ _ _ hw) (by omega), Screen.pixel_blitRow w h _ _ _ _ _ hw (by omega) (Nat.mod_lt _ (by omega)) (Screen.distinct_cols w x0 h8)]
    rw [List.length_cons, List.range_succ_eq_map (n := bs.length), List.any_cons, List.any_map]
    simp only [Function.comp_def, List.getElem?_cons_zero, List.getElem?_cons_succ, Option.getD_some, Nat.add_zero]
    have e : ∀ k, r + 1 + k = r + Nat.succ k := by intro k; omega
    simp only [e]
    by_cases hp : (List.range 8).any (fun c => b.getLsbD (7 - c) && decide ((x0 + c) % w = px ∧ (y0 + r) % h = py)) = true
    · have h0 : (List.range bs.length).any (fun k => (List.range 8).any (fun c => ((bs[k]?).getD 0).getLsbD (7 - c) && decide ((x0 + c) % w = px ∧ (y0 + (r + Nat.succ k)) % h = py))) = false := by
        rw [List.any_eq_false]
        intro k hk
        rw [Bool.not_eq_true, List.any_eq_false]
        intro c hc
        rw [List.any_eq_true] at hp
        obtain ⟨c0, _, hc0⟩ := hp
        simp at hc0 hk ⊢
        intro _ _ e2
        have := Nat.sub_mod_eq_zero_of_mod_eq (e2.trans hc0.2.2.symm)
        rw [show y0 + (r + (k + 1)) - (y0 + r) = k + 1 by omega, Nat.mod_eq_of_lt (by omega)] at this
        omega
      simp only [h0, hp]; simp
    · simp only [Bool.not_eq_true] at hp
      rw [hp]; simp

/-- How many sprite rows erase a pixel (R252, D14). -/
theorem Screen.count_blit (w h x0 y0 r : Nat) (bs : List Byte) (fb : Screen) (hw : Screen.wf w h fb = true) (h8 : 8 ≤ w) (hlen : bs.length ≤ h) :
    (Screen.blit w h x0 y0 r bs fb).2 =
      ((List.range bs.length).filter (fun k => (List.range 8).any (fun c => ((bs[k]?).getD 0).getLsbD (7 - c) && Screen.pixel fb ((x0 + c) % w) ((y0 + (r + k)) % h)))).length := by
  induction bs generalizing fb r with
  | nil => simp [Screen.blit]
  | cons b bs ih =>
    simp only [List.length_cons] at hlen
    simp only [Screen.blit]
    rw [ih _ _ (Screen.wf_blitRow _ _ _ _ _ _ _ hw) (by omega), Screen.hit_blitRow w h _ _ _ _ _ hw (by omega) (Nat.mod_lt _ (by omega)) (Screen.distinct_cols w x0 h8)]
    rw [List.length_cons, List.range_succ_eq_map (n := bs.length), List.filter_cons, List.filter_map, ]
    simp only [Function.comp_def, List.getElem?_cons_zero, List.getElem?_cons_succ, Option.getD_some, Nat.add_zero]
    have e : ∀ k, r + 1 + k = r + Nat.succ k := by intro k; omega
    simp only [e]
    have : (List.range bs.length).filter (fun k => (List.range 8).any (fun c => ((bs[k]?).getD 0).getLsbD (7 - c) && Screen.pixel (Screen.blitRow w b x0 ((y0 + r) % h) (List.range 8) fb).1 ((x0 + c) % w) ((y0 + (r + Nat.succ k)) % h)))
      = (List.range bs.length).filter (fun k => (List.range 8).any (fun c => ((bs[k]?).getD 0).getLsbD (7 - c) && Screen.pixel fb ((x0 + c) % w) ((y0 + (r + Nat.succ k)) % h))) := by
      apply List.filter_congr
      intro k hk
      simp at hk
      congr 1; funext c; congr 1
      rw [Screen.pixel_blitRow w h _ _ _ _ _ hw (by omega) (Nat.mod_lt _ (by omega)) (Screen.distinct_cols w x0 h8)]
      have : ¬ (y0 + r) % h = (y0 + (r + Nat.succ k)) % h := by
        intro e2
        have := Nat.sub_mod_eq_zero_of_mod_eq e2.symm
        rw [show y0 + (r + (k + 1)) - (y0 + r) = k + 1 by omega, Nat.mod_eq_of_lt (by omega)] at this
        omega
      have hz : ∀ (L : List Nat), L.any (fun _ => false) = false := by intro L; induction L <;> simp_all
      simp only [this, and_false, decide_false, Bool.and_false, hz, Bool.xor_false]
    rw [this]
    split <;> simp <;> omega

/-- A run of 0 pixels reads 0 everywhere. -/
theorem Screen.getD_replicate_false (n x : Nat) : ((List.replicate n false)[x]?).getD false = false := by
  rw [List.getElem?_replicate]
  split <;> rfl

/-- A scroll down keeps the grid. -/
theorem Screen.wf_scrollDown {w h : Nat} {fb : Screen} (hw : Screen.wf w h fb = true) (n : Nat) :
    Screen.wf w h (Screen.scrollDown w h n fb) = true := by
  rw [Screen.wf_iff] at hw ⊢
  refine ⟨by simp [Screen.scrollDown, hw.1], fun row hrow => ?_⟩
  rcases List.mem_append.mp (List.mem_of_mem_take hrow) with hm | hm
  · rw [List.eq_of_mem_replicate hm]
    simp
  · exact hw.2 _ hm

/-- A scroll right keeps the grid. -/
theorem Screen.wf_scrollRight {w h : Nat} {fb : Screen} (hw : Screen.wf w h fb = true) :
    Screen.wf w h (Screen.scrollRight w fb) = true := by
  rw [Screen.wf_iff] at hw ⊢
  refine ⟨by simp [Screen.scrollRight, hw.1], fun row hrow => ?_⟩
  obtain ⟨old, hm, rfl⟩ := List.mem_map.mp hrow
  simp only [List.length_take, List.length_append, List.length_replicate, hw.2 _ hm]
  omega

/-- A scroll left keeps a grid at least 4 wide. -/
theorem Screen.wf_scrollLeft {w h : Nat} {fb : Screen} (hw : Screen.wf w h fb = true) (h4 : 4 ≤ w) :
    Screen.wf w h (Screen.scrollLeft fb) = true := by
  rw [Screen.wf_iff] at hw ⊢
  refine ⟨by simp [Screen.scrollLeft, hw.1], fun row hrow => ?_⟩
  obtain ⟨old, hm, rfl⟩ := List.mem_map.mp hrow
  simp only [List.length_append, List.length_drop, List.length_replicate, hw.2 _ hm]
  omega

/-- What a scroll down does to each pixel (R253). -/
theorem Screen.pixel_scrollDown {w h n x y : Nat} {fb : Screen} (hx : x < w) (hy : y < h) :
    Screen.pixel (Screen.scrollDown w h n fb) x y = if n ≤ y then Screen.pixel fb x (y - n) else false := by
  simp only [Screen.pixel, Screen.scrollDown, List.getD_eq_getElem?_getD]
  rw [List.getElem?_take, if_pos hy, List.getElem?_append]
  simp only [List.length_replicate]
  by_cases hn : y < n
  · rw [if_pos hn, if_neg (by omega)]
    simp [hn, hx]
  · rw [if_neg hn, if_pos (by omega)]

/-- What a scroll right does to each pixel (R254). -/
theorem Screen.pixel_scrollRight {w h x y : Nat} {fb : Screen} (hw : Screen.wf w h fb = true) (hx : x < w) (hy : y < h) :
    Screen.pixel (Screen.scrollRight w fb) x y = if 4 ≤ x then Screen.pixel fb (x - 4) y else false := by
  obtain ⟨hl, -⟩ := Screen.wf_iff.mp hw
  have hlen : y < fb.length := by omega
  simp only [Screen.pixel, Screen.scrollRight, List.getD_eq_getElem?_getD, List.getElem?_map,
    List.getElem?_eq_getElem hlen, Option.map_some, Option.getD_some]
  rw [List.getElem?_take, if_pos hx, List.getElem?_append]
  simp only [List.length_replicate]
  by_cases h4 : x < 4
  · rw [if_pos h4, if_neg (by omega)]
    exact Screen.getD_replicate_false 4 x
  · rw [if_neg h4, if_pos (by omega)]

/-- What a scroll left does to each pixel (R255). -/
theorem Screen.pixel_scrollLeft {w h x y : Nat} {fb : Screen} (hw : Screen.wf w h fb = true) (hx : x < w) (hy : y < h) :
    Screen.pixel (Screen.scrollLeft fb) x y = if x + 4 < w then Screen.pixel fb (x + 4) y else false := by
  obtain ⟨hl, hr⟩ := Screen.wf_iff.mp hw
  have hlen : y < fb.length := by omega
  simp only [Screen.pixel, Screen.scrollLeft, List.getD_eq_getElem?_getD, List.getElem?_map,
    List.getElem?_eq_getElem hlen, Option.map_some, Option.getD_some]
  rw [List.getElem?_append]
  simp only [List.length_drop, List.getElem?_drop, hr _ (List.getElem_mem hlen)]
  by_cases h4 : x + 4 < w
  · rw [if_pos (by omega), if_pos h4, Nat.add_comm]
  · rw [if_neg (by omega), if_neg h4]
    exact Screen.getD_replicate_false 4 _

end Sys2Proof.Machine
end

