-- ==== Sys2Proof/Laws/Tick.lean ====
section
/-! SUPPORT. The laws of the tick's parts: the key scan, the fetch, the end of a tick, and what a tick is made of. -/

namespace Sys2Proof.Machine

/-- No key from `k` on is pressed: the scan finds none (R342). -/
theorem State.firstKeyFrom_none (s : State) (k n : Nat)
    (h : ∀ j, k ≤ j → j < k + n → (s.keys[j]?).getD false = false) : s.firstKeyFrom k n = none := by
  induction n generalizing k with
  | zero => rfl
  | succ n ih =>
    rw [State.firstKeyFrom, if_neg (by simp [h k (by omega) (by omega)])]
    exact ih _ fun j h1 h2 => h j (by omega) (by omega)

/-- The scan finds the least pressed key (R342). -/
theorem State.firstKeyFrom_some (s : State) (k n m : Nat) (hm : k ≤ m) (hn : m < k + n)
    (h : ∀ j, k ≤ j → j < m → (s.keys[j]?).getD false = false) (hk : (s.keys[m]?).getD false = true) :
    s.firstKeyFrom k n = some m := by
  induction n generalizing k with
  | zero => omega
  | succ n ih =>
    by_cases he : k = m
    · rw [he, State.firstKeyFrom, if_pos hk]
    · rw [State.firstKeyFrom, if_neg (by simp [h k (by omega) (by omega)])]
      exact ih _ (by omega) (by omega) fun j h1 h2 => h j (by omega) h2

/-- A fetch whose two bytes exist reads them, high byte first (R101). -/
theorem State.fetch_of_fits (s : State) (h : s.pc.toNat + 1 < memSize) :
    s.fetch = .ok (wordOfBytes (s.readByte s.pc.toNat) (s.readByte (s.pc.toNat + 1))) := by
  have hlo : s.pc.toNat < memSize := by omega
  simp [State.fetch, State.memRead, h, hlo]

/-- A fetch that runs off memory answers the first address that does not exist (R101, R352). -/
theorem State.fetch_of_runs_off (s : State) (h : memSize ≤ s.pc.toNat + 1) :
    s.fetch = .error (.memoryOutOfRange (if s.pc.toNat < memSize then s.pc.toNat + 1 else s.pc.toNat)) := by
  have hhi : ¬s.pc.toNat + 1 < memSize := by omega
  by_cases hlo : s.pc.toNat < memSize <;> simp [State.fetch, State.memRead, hhi, hlo]

/-- A tick of a stopped core (R341). -/
theorem step_of_stopped {s : State} (h : s.stopped = true) : step s = .next s := by
  simp [step, tick, h]

/-- A tick of a core that neither is stopped nor waits fetches and executes (R340). -/
theorem step_of_running {s : State} (hs : s.stopped = false) (ha : s.awaiting = false) :
    step s = s.fetchExecute := by
  simp [step, tick, hs, State.scanKeys, ha]

/-- The end of a tick steps the timers or, after a raise, changes nothing (R340). -/
theorem State.endTick_eq (s : State) :
    s.endTick = if s.fault = none then { s with dt := timerDec s.dt, st := timerDec s.st } else s := by
  unfold State.endTick
  cases hf : s.fault <;> simp [State.stepTimers, State.withTimers, hf]

/-- A run of one more step. -/
theorem run_of_step (M : Host.Core) (k : Nat) (s t : M.State) (h : M.step s = .next t) : M.run (k + 1) s = M.run k t := by
  rw [Host.Core.run, h]

end Sys2Proof.Machine
end

