-- ==== Sys2Proof/Tests/Slice0.lean ====
section
/-! SUPPORT. The model's own tests. Expected values come from spec/95_vectors.md (its row is named) or from the
encoding of 30_encoding.md R111, never from the model. Then the witnesses: for each statement with hypotheses, concrete
values that meet them, at the boundary values of each clause. -/

namespace Sys2Proof.Machine.Tests

/-! ### Helpers -/

/-- The machine after reset, in the given mode, with the word `w` at 0x200 (spec/95, conventions). -/
def start (schip : Bool) (w : Nat) : State :=
  (State.resetWith { defaultConfig with schipMode := schip }).withFetchWord 16 w

/-- What `f` reads in the state a step answers. -/
def after {α : Type} (r : Result) (f : State → α) : Option α :=
  match r with
  | .next t => some (f t)
  | _ => none

/-- `s` with the bytes `bs` at `a` and `I = a`. -/
def withBytes (s : State) (a : Nat) (bs : List Byte) : State := (s.storeBytes a bs).withI (BitVec.ofNat 16 a)

/-- `s` with the listed pixels on, at a resolution. -/
def withPixels (s : State) (hires : Bool) (ps : List (Nat × Nat)) : State :=
  s.withScreen hires (ps.foldl (fun fb p => fb.flip p.1 p.2) (Screen.blank (widthOf hires) (heightOf hires))) false

/-- `s` with the key `k` alone pressed. -/
def withKey (s : State) (k : Nat) : State := s.withKeys ((Vector.replicate 16 false).setIfInBounds k true)

/-! ### Well-formedness: an ill-formed configuration for each check of R12 -/

theorem test_default_config_is_well_formed : defaultConfig.wellFormed = true := by decide
theorem test_large_font_over_small_font_is_refused :
    ({ defaultConfig with largeFontBase := 0x09F } : Config).wellFormed = false := by decide
theorem test_large_font_into_program_area_is_refused :
    ({ defaultConfig with largeFontBase := 0x19D } : Config).wellFormed = false := by decide
theorem test_large_font_at_its_bounds_is_accepted :
    ({ defaultConfig with largeFontBase := 0x0A0 } : Config).wellFormed = true ∧
      ({ defaultConfig with largeFontBase := 0x19C } : Config).wellFormed = true := by decide

/-! ### Decoding: one word per constructor, written out from its pattern in R111 -/

theorem test_decode_cls : decodeTableWord 16 0b0000_0000_1110_0000 = some (.cls) := by decide
theorem test_decode_ret : decodeTableWord 16 0b0000_0000_1110_1110 = some (.ret) := by decide
theorem test_decode_jp : decodeTableWord 16 0b0001_1010_0101_1100 = some (.jp 0xA5C) := by decide
theorem test_decode_call : decodeTableWord 16 0b0010_1010_0101_1100 = some (.call 0xA5C) := by decide
theorem test_decode_seImm : decodeTableWord 16 0b0011_1010_0101_1100 = some (.seImm 0xA 0x5C) := by decide
theorem test_decode_sneImm : decodeTableWord 16 0b0100_1010_0101_1100 = some (.sneImm 0xA 0x5C) := by decide
theorem test_decode_seReg : decodeTableWord 16 0b0101_1010_0101_0000 = some (.seReg 0xA 0x5) := by decide
theorem test_decode_ldImm : decodeTableWord 16 0b0110_1010_0101_1100 = some (.ldImm 0xA 0x5C) := by decide
theorem test_decode_addImm : decodeTableWord 16 0b0111_1010_0101_1100 = some (.addImm 0xA 0x5C) := by decide
theorem test_decode_ldReg : decodeTableWord 16 0b1000_1010_0101_0000 = some (.ldReg 0xA 0x5) := by decide
theorem test_decode_orReg : decodeTableWord 16 0b1000_1010_0101_0001 = some (.orReg 0xA 0x5) := by decide
theorem test_decode_andReg : decodeTableWord 16 0b1000_1010_0101_0010 = some (.andReg 0xA 0x5) := by decide
theorem test_decode_xorReg : decodeTableWord 16 0b1000_1010_0101_0011 = some (.xorReg 0xA 0x5) := by decide
theorem test_decode_addReg : decodeTableWord 16 0b1000_1010_0101_0100 = some (.addReg 0xA 0x5) := by decide
theorem test_decode_sub : decodeTableWord 16 0b1000_1010_0101_0101 = some (.sub 0xA 0x5) := by decide
theorem test_decode_shr : decodeTableWord 16 0b1000_1010_0101_0110 = some (.shr 0xA 0x5) := by decide
theorem test_decode_subn : decodeTableWord 16 0b1000_1010_0101_0111 = some (.subn 0xA 0x5) := by decide
theorem test_decode_shl : decodeTableWord 16 0b1000_1010_0101_1110 = some (.shl 0xA 0x5) := by decide
theorem test_decode_sneReg : decodeTableWord 16 0b1001_1010_0101_0000 = some (.sneReg 0xA 0x5) := by decide
theorem test_decode_ldI : decodeTableWord 16 0b1010_0011_0101_1100 = some (.ldI 0x35C) := by decide
theorem test_decode_jpV0 : decodeTableWord 16 0b1011_0011_0101_1100 = some (.jpV0 0x35C) := by decide
theorem test_decode_rnd : decodeTableWord 16 0b1100_0011_0101_1100 = some (.rnd 0x3 0x5C) := by decide
theorem test_decode_drw : decodeTableWord 16 0b1101_0011_0101_1100 = some (.drw 0x3 0x5 0xC) := by decide
theorem test_decode_skp : decodeTableWord 16 0b1110_0011_1001_1110 = some (.skp 0x3) := by decide
theorem test_decode_sknp : decodeTableWord 16 0b1110_0011_1010_0001 = some (.sknp 0x3) := by decide
theorem test_decode_ldVxDT : decodeTableWord 16 0b1111_0011_0000_0111 = some (.ldVxDT 0x3) := by decide
theorem test_decode_ldVxK : decodeTableWord 16 0b1111_0011_0000_1010 = some (.ldVxK 0x3) := by decide
theorem test_decode_ldDTVx : decodeTableWord 16 0b1111_0011_0001_0101 = some (.ldDTVx 0x3) := by decide
theorem test_decode_ldSTVx : decodeTableWord 16 0b1111_0011_0001_1000 = some (.ldSTVx 0x3) := by decide
theorem test_decode_addI : decodeTableWord 16 0b1111_0011_0001_1110 = some (.addI 0x3) := by decide
theorem test_decode_ldF : decodeTableWord 16 0b1111_0011_0010_1001 = some (.ldF 0x3) := by decide
theorem test_decode_ldHF : decodeTableWord 16 0b1111_0011_0011_0000 = some (.ldHF 0x3) := by decide
theorem test_decode_ldB : decodeTableWord 16 0b1111_0011_0011_0011 = some (.ldB 0x3) := by decide
theorem test_decode_storeRegs : decodeTableWord 16 0b1111_0011_0101_0101 = some (.storeRegs 0x3) := by decide
theorem test_decode_loadRegs : decodeTableWord 16 0b1111_0011_0110_0101 = some (.loadRegs 0x3) := by decide
theorem test_decode_scd : decodeTableWord 16 0b0000_0000_1100_0101 = some (.scd 0x5) := by decide
theorem test_decode_scr : decodeTableWord 16 0b0000_0000_1111_1011 = some (.scr) := by decide
theorem test_decode_scl : decodeTableWord 16 0b0000_0000_1111_1100 = some (.scl) := by decide
theorem test_decode_exit : decodeTableWord 16 0b0000_0000_1111_1101 = some (.exit) := by decide
theorem test_decode_low : decodeTableWord 16 0b0000_0000_1111_1110 = some (.low) := by decide
theorem test_decode_high : decodeTableWord 16 0b0000_0000_1111_1111 = some (.high) := by decide
theorem test_decode_saveRpl : decodeTableWord 16 0b1111_0011_0111_0101 = some (.saveRpl 0x3) := by decide
theorem test_decode_loadRpl : decodeTableWord 16 0b1111_0011_1000_0101 = some (.loadRpl 0x3) := by decide

/-- spec/95 2.1: the listed unknown words, and no neighbour of theirs, are rejected by name. -/
theorem test_unknown_words_are_rejected :
    [0x0000, 0x0123, 0x00E1, 0x00FA, 0x5121, 0x8128, 0x812F, 0x9121, 0xE19F, 0xF101, 0xF1FF].all
      (fun w => decodeTableWord 16 w == none) = true := by decide

/-- Fewer than two bytes are no instruction. -/
theorem test_truncated_bytes_are_rejected : decode [0x12] = .error .truncated := by rfl

/-! ### One step of each instruction -/

/-- 95 E4 -/
theorem test_cls :
    after (step (withPixels (start false 0x00E0) false [(3, 4)])) (fun t => (t.pixel 3 4, t.changed)) = some (false, true) := by decide

/-- 95 2.2 -/
theorem test_ret_underflow :
    after (step (start false 0x00EE)) (·.fault) = some (some (.stackUnderflow 0x200)) := by decide

/-- 95 2.2 -/
theorem test_ret_pops :
    after (step ((start false 0x00EE).withStack ((Vector.replicate 16 0).set 1 0x456) 2)) (fun t => (t.pc, t.sp)) =
      some (0x456, 1) := by decide

/-- 95 2.2 -/
theorem test_jp :
    after (step (start false 0x1200)) (·.pc) = some 0x200 := by decide

/-- 95 2.2 -/
theorem test_call_pushes :
    after (step ((start false 0x2ABC).withStack (Vector.replicate 16 0) 15))
      (fun t => (t.stack[15], t.sp, t.pc)) = some (0x202, 16, 0xABC) := by decide

/-- 95 2.2 -/
theorem test_call_overflow :
    after (step ((start false 0x2ABC).withStack (Vector.replicate 16 0) 16)) (·.fault) =
      some (some (.stackOverflow 0x200)) := by decide

/-- 95 2.2 -/
theorem test_se_imm :
    after (step ((start false 0x3742).setV 7 0x42)) (·.pc) = some 0x204 ∧
      after (step ((start false 0x3743).setV 7 0x42)) (·.pc) = some 0x202 := by decide

/-- 95 2.2 -/
theorem test_sne_imm :
    after (step ((start false 0x4743).setV 7 0x42)) (·.pc) = some 0x204 ∧
      after (step ((start false 0x4742).setV 7 0x42)) (·.pc) = some 0x202 := by decide

/-- 95 2.2 -/
theorem test_se_reg :
    after (step (((start false 0x5120).setV 1 3).setV 2 4)) (·.pc) = some 0x202 ∧
      after (step ((start false 0x5110).setV 1 3)) (·.pc) = some 0x204 := by decide

/-- 95 2.2 -/
theorem test_sne_reg :
    after (step (((start false 0x9120).setV 1 3).setV 2 4)) (·.pc) = some 0x204 ∧
      after (step ((start false 0x9110).setV 1 3)) (·.pc) = some 0x202 := by decide

/-- 95 2.2: `V0`, not `V5`, in both modes -/
theorem test_jp_v0 :
    after (step (((start false 0xB520).setV 0 0x10).setV 5 0x99)) (·.pc) = some 0x530 ∧
      after (step (((start true 0xB520).setV 0 0x10).setV 5 0x99)) (·.pc) = some 0x530 := by decide

/-- 95 2.2 -/
theorem test_jp_v0_past_memory :
    after (step ((start false 0xBFFF).setV 0 0xFF)) (·.pc) = some 0x10FE := by decide

/-- 95 E1 -/
theorem test_ld_imm :
    after (step (start false 0x6A2B)) (·.getV 0xA) = some 0x2B := by decide

/-- 95 E2 -/
theorem test_add_imm :
    after (step ((start false 0x71F0).setV 1 0x10)) (·.getV 1) = some 0x00 := by decide

/-- 95 2.3: wraps, no flag -/
theorem test_add_imm_vf :
    after (step ((start false 0x7FFF).setV 0xF 0x07)) (·.getVF) = some 0x06 := by decide

/-- 95 2.3 -/
theorem test_ld_reg :
    after (step (((start false 0x8010).setV 0 0x33).setV 1 0x55)) (fun t => (t.getV 0, t.getVF)) = some (0x55, 0) := by decide

/-- 95 2.3: `VF` unchanged -/
theorem test_or_reg :
    after (step ((((start false 0x8011).setV 0 0x0F).setV 1 0xF0).setV 0xF 0x01)) (fun t => (t.getV 0, t.getVF)) = some (0xFF, 0x01) := by decide

/-- 95 2.3 -/
theorem test_and_reg :
    after (step (((start false 0x8012).setV 0 0x3C).setV 1 0x0F)) (fun t => (t.getV 0, t.getVF)) = some (0x0C, 0) := by decide

/-- 95 2.3 -/
theorem test_xor_reg :
    after (step (((start false 0x8013).setV 0 0x3C).setV 1 0x0F)) (fun t => (t.getV 0, t.getVF)) = some (0x33, 0) ∧
      after (step ((start false 0x8003).setV 0 0x5A)) (fun t => (t.getV 0, t.getVF)) = some (0x00, 0) := by decide

/-- 95 E3, 2.3 -/
theorem test_add_reg :
    after (step (((start false 0x8014).setV 0 0xFF).setV 1 0x01)) (fun t => (t.getV 0, t.getVF)) = some (0x00, 1) ∧
      after (step ((((start false 0x8014).setV 0 0x7F).setV 1 0x80).setV 0xF 1)) (fun t => (t.getV 0, t.getVF)) = some (0xFF, 0) := by decide

/-- 95 2.3: the flag overwrites the sum -/
theorem test_add_reg_vf :
    after (step (((start false 0x8F14).setV 1 0x01).setV 0xF 0xFF)) (·.getVF) = some 1 := by decide

/-- 95 2.3: strict -/
theorem test_sub :
    after (step (((start false 0x8015).setV 0 0x10).setV 1 0x10)) (fun t => (t.getV 0, t.getVF)) = some (0x00, 0) ∧
      after (step (((start false 0x8015).setV 0 0x00).setV 1 0x01)) (fun t => (t.getV 0, t.getVF)) = some (0xFF, 0) ∧
      after (step (((start false 0x8015).setV 0 0xFF).setV 1 0x00)) (fun t => (t.getV 0, t.getVF)) = some (0xFF, 1) := by decide

/-- 95 2.3 -/
theorem test_sub_vf :
    after (step (((start false 0x8F15).setV 1 0x03).setV 0xF 0x05)) (·.getVF) = some 1 := by decide

/-- 95 2.3, E7 -/
theorem test_shr :
    after (step (((start false 0x8016).setV 0 0x00).setV 1 0x03)) (fun t => (t.getV 0, t.getVF)) = some (0x01, 1) ∧
      after (step (((start true 0x8016).setV 0 0x03).setV 1 0x00)) (fun t => (t.getV 0, t.getVF)) = some (0x01, 1) := by decide

/-- 95 2.3 -/
theorem test_shr_vf :
    after (step (((start false 0x80F6).setV 0 0x00).setV 0xF 0x05)) (fun t => (t.getV 0, t.getVF)) = some (0x02, 1) ∧
      after (step (((start true 0x8F16).setV 1 0x03).setV 0xF 0x10)) (·.getVF) = some 0 := by decide

/-- 95 2.3 -/
theorem test_subn :
    after (step (((start false 0x8017).setV 0 0x10).setV 1 0x10)) (fun t => (t.getV 0, t.getVF)) = some (0x00, 0) ∧
      after (step (((start false 0x8017).setV 0 0x01).setV 1 0x00)) (fun t => (t.getV 0, t.getVF)) = some (0xFF, 0) ∧
      after (step (((start false 0x8017).setV 0 0x00).setV 1 0xFF)) (fun t => (t.getV 0, t.getVF)) = some (0xFF, 1) := by decide

/-- 95 2.3 -/
theorem test_shl :
    after (step (((start false 0x801E).setV 0 0x00).setV 1 0x81)) (fun t => (t.getV 0, t.getVF)) = some (0x02, 1) ∧
      after (step (((start true 0x801E).setV 0 0x81).setV 1 0x00)) (fun t => (t.getV 0, t.getVF)) = some (0x02, 1) := by decide

/-- 95 2.3 -/
theorem test_shl_same :
    after (step ((start false 0x800E).setV 0 0xC1)) (fun t => (t.getV 0, t.getVF)) = some (0x82, 1) ∧
      after (step (((start false 0x801E).setV 0 0x81).setV 1 0x00)) (fun t => (t.getV 0, t.getVF)) = some (0x00, 0) := by decide

/-- 95 2.3: any draw, masked with 0. The draw's value is free. -/
theorem test_rnd_zero_mask : after (step (start false 0xC300)) (·.getV 3) = some 0 := by
  exact congrArg some (BitVec.and_zero (x := Config.randomByte 0))

/-- The draw is used up. -/
theorem test_rnd_uses_a_draw : after (step (start false 0xC30F)) (fun t => (t.draws, t.pc)) = some (1, 0x202) := by decide

/-- 95 2.4 -/
theorem test_ld_i :
    after (step (start false 0xAFFF)) (·.i) = some 0x0FFF := by decide

/-- 95 2.4 -/
theorem test_add_i :
    after (step (((start false 0xF11E).withI 0xFFFF).setV 1 1)) (fun t => (t.i, t.getVF)) = some (0x0000, 0) ∧
      after (step (((start false 0xF11E).withI 0x0FFF).setV 1 1)) (fun t => (t.i, t.getVF)) = some (0x1000, 0) := by decide

/-- 95 2.4: no masking -/
theorem test_ld_f :
    after (step ((start false 0xF029).setV 0 0x0F)) (·.i) = some 0x09B ∧
      after (step ((start false 0xF029).setV 0 0x20)) (·.i) = some 0x0F0 := by decide

/-- 95 2.4 -/
theorem test_ld_hf :
    after (step ((start false 0xF030).setV 0 9)) (·.i) = some 0x0FA := by decide

/-- 95 2.4 -/
theorem test_ld_hf_report :
    after (step (((start false 0xF030).setV 0 0x0A).withI 0x123)) (fun t => (t.i, t.reports)) =
      some (0x123, [.largeFontDigitOutOfRange 0xF030 0x0A]) := by decide

/-- 95 2.4 -/
theorem test_ld_b :
    after (step (((start false 0xF533).setV 5 0xFF).withI 0x300))
      (fun t => ([0x300, 0x301, 0x302].map t.readByte, t.i)) = some ([2, 5, 5], 0x300) := by decide

/-- 95 2.4 -/
theorem test_ld_b_fault :
    after (step (((start false 0xF533).setV 5 1).withI 0xFFE)) (·.fault) = some (some (.memoryOutOfRange 0x1000)) := by decide

/-- 95 2.4 -/
theorem test_store_regs :
    after (step ((((start false 0xF255).setV 0 1).setV 1 2).setV 2 3 |>.withI 0x300))
      (fun t => ([0x300, 0x301, 0x302, 0x303].map t.readByte, t.i)) = some ([1, 2, 3, 0], 0x303) ∧
      after (step ((start true 0xF055).setV 0 0xAA |>.withI 0x300)) (fun t => (t.readByte 0x300, t.i)) =
        some (0xAA, 0x300) := by decide

/-- 95 2.4 -/
theorem test_store_regs_at_the_end :
    after (step ((start false 0xFF55).withI 0xFF0)) (fun t => (t.i, t.fault)) = some (0x1000, none) ∧
      after (step ((start false 0xFF55).withI 0xFF1)) (·.fault) = some (some (.memoryOutOfRange 0x1000)) := by decide

/-- 95 2.4: glyph 0 -/
theorem test_load_regs :
    after (step ((start false 0xF465).withI 0x050)) (fun t => (([0, 1, 2, 3, 4] : List Nibble).map t.getV, t.i)) =
      some ([0xF0, 0x90, 0x90, 0x90, 0xF0], 0x055) := by decide

/-- 95 2.4 -/
theorem test_load_regs_schip :
    after (step (withBytes (start true 0xF165) 0x300 [7, 8])) (fun t => (t.getV 0, t.getV 1, t.getV 2, t.i)) =
      some (7, 8, 0, 0x300) := by decide

/-- 95 2.5 -/
theorem test_drw_wraps :
    after (step (((withBytes (start false 0xD012) 0x20C [0xC3, 0x81]).setV 0 62).setV 1 31))
      (fun t => ([(62, 31), (63, 31), (4, 31), (5, 31), (62, 0), (5, 0), (0, 31), (63, 0)].map (fun p => t.pixel p.1 p.2),
        t.getVF, t.changed)) = some ([true, true, true, true, true, true, false, false], 0, true) := by decide

/-- 95 2.5: 1 in base mode, the rows in SCHIP mode -/
theorem test_drw_collision :
    let rows := [(0, 0), (1, 0), (2, 0), (3, 0), (4, 0), (5, 0), (6, 0), (7, 0), (0, 2), (1, 2), (2, 2), (3, 2), (4, 2), (5, 2),
      (6, 2), (7, 2)]
    after (step (withPixels (withBytes (start false 0xD013) 0x300 [0xFF, 0, 0xFF]) false rows))
        (fun t => (t.pixel 0 0, t.pixel 7 2, t.getVF)) = some (false, false, 1) ∧
      after (step (withPixels (withBytes (start true 0xD013) 0x300 [0xFF, 0, 0xFF]) false rows)) (·.getVF) = some 2 := by decide

/-- 95 2.5 -/
theorem test_scd :
    after (step (withPixels (start true 0x00C4) true [(10, 0)])) (fun t => (t.pixel 10 4, t.pixel 10 0, t.changed)) =
      some (true, false, true) ∧
      after (step (withPixels (start true 0x00C1) false [(10, 31)])) (fun t => (t.pixel 10 31, t.pixel 10 0)) = some (false, false) := by decide

/-- 95 2.5 -/
theorem test_scr :
    after (step (withPixels (start true 0x00FB) false [(0, 0), (61, 5)]))
      (fun t => (t.pixel 4 0, t.pixel 0 0, t.pixel 61 5, t.pixel 1 5)) = some (true, false, false, false) := by decide

/-- 95 2.5 -/
theorem test_scl :
    after (step (withPixels (start true 0x00FC) false [(4, 0), (1, 1)]))
      (fun t => (t.pixel 0 0, t.pixel 4 0, t.pixel 1 1, t.pixel 61 1)) = some (true, false, false, false) := by decide

/-- 95 2.5 -/
theorem test_high :
    after (step (withPixels (start true 0x00FF) true [(3, 4)])) (fun t => (t.hires, t.pixel 3 4, t.fb.length, t.changed)) =
      some (true, false, 64, true) := by decide

/-- 95 2.5 -/
theorem test_low :
    after (step (withPixels (start true 0x00FE) true [(3, 4)])) (fun t => (t.hires, t.pixel 3 4, t.fb.length, t.changed)) =
      some (false, false, 32, true) := by decide

/-- 95 2.6 -/
theorem test_skp :
    after (step (withKey ((start false 0xE59E).setV 5 0x0C) 12)) (·.pc) = some 0x204 ∧
      after (step ((start false 0xE59E).setV 5 0x0C)) (·.pc) = some 0x202 := by decide

/-- 95 2.6 -/
theorem test_skp_fault :
    after (step ((start false 0xE59E).setV 5 0x10)) (·.fault) = some (some (.keyIndexOutOfRange 0x10)) := by decide

/-- 95 2.6 -/
theorem test_sknp :
    after (step (withKey ((start false 0xE5A1).setV 5 0x0C) 12)) (·.pc) = some 0x202 ∧
      after (step ((start false 0xE5A1).setV 5 0x0C)) (·.pc) = some 0x204 := by decide

/-- 95 2.6 -/
theorem test_ld_vx_dt :
    after (step ((start false 0xF307).withTimers 0x3C 0)) (fun t => (t.getV 3, t.dt)) = some (0x3C, 0x3B) ∧
      after (step (start false 0xF307)) (fun t => (t.getV 3, t.dt)) = some (0, 0) := by decide

/-- 95 2.6 -/
theorem test_ld_dt_vx :
    after (step ((start false 0xF315).setV 3 7)) (·.dt) = some 6 := by decide

/-- 95 2.6 -/
theorem test_ld_st_vx :
    after (step ((start false 0xF018).setV 0 2)) (·.st) = some 1 := by decide

/-- 95 2.6 -/
theorem test_ld_vx_k :
    after (step ((start false 0xF30A).withTimers 5 0)) (fun t => (t.awaiting, t.target, t.pc, t.dt)) =
      some (true, 3, 0x202, 4) := by decide

/-- 95 2.6 -/
theorem test_key_wait_ends :
    after (step (withKey ((start false 0x3F01).withWait true 0xF) 1)) (fun t => (t.getVF, t.awaiting, t.pc)) =
      some (1, false, 0x204) := by decide

/-- 95 2.6 -/
theorem test_key_wait_goes_on :
    after (step (((start false 0x6000).withWait true 3).withTimers 5 0)) (fun t => (t.awaiting, t.pc, t.dt)) =
      some (true, 0x200, 5) := by decide

/-- 95 2.7 -/
theorem test_exit :
    after (step ((start true 0x00FD).withTimers 2 0)) (fun t => (t.quit, t.pc, t.dt)) = some (true, 0x202, 1) := by decide

/-- 95 2.7 -/
theorem test_save_rpl :
    after (step (((start true 0xF175).setV 0 1).setV 1 2)) (fun t => (t.rpl[0], t.rpl[1], t.rpl[2])) = some (1, 2, 0) ∧
      after (step (start true 0xF875)) (fun t => (t.rpl, t.reports)) =
        some (Vector.replicate 8 0, [.rplIndexOutOfRange 0xF875 8]) := by decide

/-- 95 2.7 -/
theorem test_load_rpl :
    after (step ((start true 0xF185).withRpl (((Vector.replicate 8 0).set 0 9).set 1 0x0A)))
      (fun t => (t.getV 0, t.getV 1)) = some (9, 0x0A) := by decide

/-- 95 2.7 -/
theorem test_load_rpl_report :
    after (step ((start true 0xFF85).setV 0xF 0x33)) (fun t => (t.getVF, t.reports)) =
      some (0x33, [.rplIndexOutOfRange 0xFF85 0xF]) := by decide

/-- 95 2.1 -/
theorem test_schip_only_report :
    [0x00C3, 0x00FB, 0x00FC, 0x00FD, 0x00FE, 0x00FF, 0xF175, 0xF185].all (fun w =>
      after (step (start false w)) (fun t => (t.pc, t.hires, t.quit, t.reports)) ==
        some (0x202, false, false, [.schipOnlyOpcode (BitVec.ofNat 16 w)])) = true := by decide

/-- 95 2.1: a reported no-op still takes a tick -/
theorem test_unknown_word :
    after (step ((start false 0x0000).withTimers 3 1)) (fun t => (t.pc, t.dt, t.st, t.reports)) =
      some (0x202, 2, 0, [.unknownOpcode 0x0000]) := by decide

/-- 95 2.1 -/
theorem test_fetch_at_the_end :
    after (step (((start false 0).withPc 0xFFE).withFetchWord 16 0x1FFE)) (·.pc) = some 0xFFE ∧
      after (step (((start false 0).withPc 0xFFF).withTimers 3 0)) (fun t => (t.fault, t.pc, t.dt)) =
        some (some (.memoryOutOfRange 0x1000), 0xFFF, 3) := by decide

/-- 95 2.1 -/
theorem test_odd_pc :
    after (step (((start false 0).withPc 0x201).withFetchWord 16 0x6005)) (fun t => (t.getV 0, t.pc)) = some (5, 0x203) := by decide

/-- 95 2.8 -/
theorem test_read_framebuffer :
    (match (withPixels State.reset false [(0, 0)] |>.withScreen false [] true).host .readFramebuffer with
      | .next (t, r) => decide (t.changed = false ∧ r = .frame 64 32 [] true)
      | _ => false) = true := by decide

/-- R404, R403: the first byte of the image lies at 0x200 -/
theorem test_load_program :
    (match State.reset.host (.loadProgram [0x12, 0x34]) with
      | .next (t, r) => decide (t.readByte 0x200 = 0x12 ∧ t.readByte 0x201 = 0x34 ∧ r = .ok)
      | _ => false) = true := by decide

/-! ### Witnesses of hypotheses -/

/-- The reset state meets the invariant. -/
theorem reset_inv : State.reset.wf = true := by decide

/-- `start` in either mode, with any of the changes below that keep memory and the grid, meets the invariant. -/
theorem witness_start_wf : (start false 0x1234).wf = true ∧ (start true 0x00C4).wf = true := by decide

theorem witness_EncodeOfDecode :
    decodeWord 0xD125 = .ok (.drw 1 2 5) := by rfl

theorem witness_IsUnknown :
    IsUnknown 0x0000 ∧ IsUnknown 0x00BF ∧ IsUnknown 0x00D0 ∧ IsUnknown 0x00FA ∧ IsUnknown 0x0100 ∧ IsUnknown 0x5121 ∧
    IsUnknown 0x9121 ∧ IsUnknown 0x812F ∧ IsUnknown 0xE19F ∧ IsUnknown 0xF1FF := by
  refine ⟨?_, ?_, ?_, ?_, ?_, ?_, ?_, ?_, ?_, ?_⟩ <;> unfold IsUnknown <;> decide

theorem witness_not_IsUnknown :
    ¬IsUnknown 0x00C0 ∧ ¬IsUnknown 0x00CF ∧ ¬IsUnknown 0x00FB ∧ ¬IsUnknown 0x00FF ∧ ¬IsUnknown 0x812E ∧ ¬IsUnknown 0xF185 := by
  refine ⟨?_, ?_, ?_, ?_, ?_, ?_⟩ <;> unfold IsUnknown <;> decide

theorem witness_UnknownWordIsReportedNoOp :
    (start false 0).stopped = false ∧ (start false 0).awaiting = false ∧ (start false 0).fetch = .ok 0 ∧ IsUnknown 0 := ⟨rfl, rfl, rfl, witness_IsUnknown.1⟩

theorem witness_StepRunsDecodedInstruction :
    let s := ((start false 0).withPc 0xFFE).withFetchWord 16 0x6A2B
    s.stopped = false ∧ s.awaiting = false ∧ s.pc.toNat + 1 < 4096 ∧
      decode [s.readByte s.pc.toNat, s.readByte (s.pc.toNat + 1)] = .ok (.ldImm 0xA 0x2B, []) ∧
      ∃ t, exec (.ldImm 0xA 0x2B) { s with pc := s.pc + 2 } = .next t ∧ t.fault = none := ⟨rfl, rfl, by decide, rfl, _, rfl, rfl⟩

theorem witness_StepRunsDecodedInstruction_raise :
    let s := start false 0x00EE
    decode [s.readByte s.pc.toNat, s.readByte (s.pc.toNat + 1)] = .ok (.ret, []) ∧
      ∃ t, exec .ret { s with pc := s.pc + 2 } = .next t ∧ t.fault ≠ none := ⟨rfl, _, rfl, by decide⟩

theorem witness_FetchReadsStoredWord :
    ((start false 0).withPc 0xFFE).wf = true ∧ ((start false 0).withPc 0xFFE).pc.toNat + 1 < 4096 ∧ 65535 < 65536 := by decide

theorem witness_FetchOutOfRangeFaults :
    ((start false 0).withPc 0xFFF).stopped = false ∧ ((start false 0).withPc 0xFFF).awaiting = false ∧
    4096 ≤ ((start false 0).withPc 0xFFF).pc.toNat + 1 ∧ 4096 ≤ ((start false 0).withPc 0x1000).pc.toNat + 1 := by decide

theorem witness_StoppedCoreStaysAsItIs :
    ((start false 0).raise (.stackOverflow 0x200)).fault ≠ none ∧ ((start true 0).withQuit true).quit = true := by decide

theorem witness_KeyWaitScan :
    let s := (start false 0).withWait true 3
    s.stopped = false ∧ s.awaiting = true ∧ (∀ k : Fin 16, s.keys[k] = false) ∧
      (withKey s 15).stopped = false ∧ (withKey s 15).awaiting = true ∧ (withKey s 15).keys[(15 : Fin 16)] = true ∧
      (∀ j : Fin 16, j < 15 → (withKey s 15).keys[j] = false) ∧ (withKey s 0).keys[(0 : Fin 16)] = true := by decide

theorem witness_TimersWrittenOnlyBySetAndStep :
    (∃ t, exec .cls (start false 0) = .next t ∧ t.fault = (start false 0).fault) ∧ (∀ x, Instr.cls ≠ .ldDTVx x) ∧ ∀ x, Instr.cls ≠ .ldSTVx x := ⟨⟨_, rfl, rfl⟩, by simp, by simp⟩

theorem witness_StepKeepsInvariant :
    State.reset.wf = true ∧ ∃ t, step State.reset = .next t := ⟨reset_inv, _, rfl⟩

theorem witness_HostMoveKeepsInvariant :
    State.reset.wf = true ∧ ∃ p, State.reset.host .readFramebuffer = .next p := ⟨reset_inv, _, rfl⟩

theorem witness_TickKeepsConfigurationAndKeys :
    ∃ t, step (withKey (start true 0x00FD) 3) = .next t := ⟨_, rfl⟩

theorem witness_OnlyStoresWriteMemory :
    (∃ t, exec (.drw 0 1 5) (start false 0) = .next t ∧ t.fault = (start false 0).fault) ∧ mayWriteMemory (.drw 0 1 5) = false := ⟨⟨_, rfl, rfl⟩, rfl⟩

theorem witness_OnlyListedInstructionsWriteIndex :
    (∃ t, exec (.loadRegs 3) (start true 0) = .next t ∧ t.fault = (start true 0).fault) ∧
    mayWriteI (start true 0).cfg.schipMode (.loadRegs 3) = false := ⟨⟨_, rfl, rfl⟩, rfl⟩

theorem witness_OnlyControlTransfersWritePcAndStack :
    (∃ t, exec (.jp 0x300) (start false 0) = .next t ∧ t.fault = (start false 0).fault) ∧ mayWriteStack (.jp 0x300) = false ∧
    (∃ t, exec (.ldI 0x300) (start false 0) = .next t ∧ t.fault = (start false 0).fault) ∧ mayWritePc (.ldI 0x300) = false := ⟨⟨_, rfl, rfl⟩, rfl, ⟨_, rfl, rfl⟩, rfl⟩

theorem witness_OnlyListedInstructionsWriteRegisters :
    (∃ t, exec (.loadRegs 3) (start false 0) = .next t ∧ t.fault = (start false 0).fault) ∧ mayWriteV 4 (.loadRegs 3) = false ∧
    mayWriteV 3 (.loadRegs 3) = true := ⟨⟨_, rfl, rfl⟩, rfl, rfl⟩

theorem witness_OnlyDisplayInstructionsWriteScreen :
    (∃ t, exec .cls (withPixels (start false 0) false [(1, 1)]) = .next t ∧ t.fault = (withPixels (start false 0) false [(1, 1)]).fault) ∧ mayWriteHires .cls = false ∧
    (∃ t, exec (.ldI 0x300) ((start false 0).withScreen false [] true) = .next t ∧ t.fault = ((start false 0).withScreen false [] true).fault) ∧
    mayWriteScreen (.ldI 0x300) = false ∧ ((start false 0).withScreen false [] true).changed = true := ⟨⟨_, rfl, rfl⟩, rfl, ⟨_, rfl, rfl⟩, rfl, rfl⟩

theorem witness_OnlyTheirInstructionsWriteWaitRplQuit :
    (∃ t, exec .cls (start false 0) = .next t ∧ t.fault = (start false 0).fault) ∧ (∀ x, Instr.cls ≠ .ldVxK x) ∧ (∀ x, Instr.cls ≠ .saveRpl x) ∧
    Instr.cls ≠ .exit := ⟨⟨_, rfl, rfl⟩, by simp, by simp, by simp⟩

theorem witness_AtMostOneEventPerTick :
    ∃ t, step (start false 0x00EE) = .next t ∧ t.fault ≠ (start false 0x00EE).fault := ⟨_, rfl, by decide⟩

theorem witness_ResetLeavesResetValues :
    defaultConfig.wellFormed = true ∧ State.reset.cfg.wellFormed = true ∧
    ({ defaultConfig with schipMode := true, largeFontBase := 0x19C } : Config).wellFormed = true := by decide

theorem witness_ResetMemoryHoldsFonts :
    State.reset.cfg.wellFormed = true ∧ ∃ t, State.reset.host .reset = .next (t, .nothing) := ⟨by decide, _, rfl⟩

theorem witness_LoadProgramCopiesOrFails :
    State.reset.wf = true ∧ (List.replicate 3585 (0 : Byte)).length > min State.reset.cfg.maxRomSize 3584 ∧
    (List.replicate 3584 (0 : Byte)).length ≤ min State.reset.cfg.maxRomSize 3584 := by
  rw [List.length_replicate, List.length_replicate]
  decide

theorem witness_TickReturnsFailedWhenRaised :
    (∃ t, step (start false 0x00EE) = .next t ∧ (start false 0x00EE).fault = none ∧ t.fault = some (.stackUnderflow 0x200)) ∧
    (∃ t, step (start false 0x1200) = .next t ∧ t.fault = none) ∧
    ((start false 0).raise (.stackOverflow 0x200)).fault ≠ none := ⟨⟨_, rfl, rfl, by decide⟩, ⟨_, rfl, rfl⟩, by decide⟩

theorem witness_RetPopsOrUnderflows :
    (start false 0).sp.val = 0 ∧ ((start false 0).withStack (Vector.replicate 16 0x300) 1).sp.val ≠ 0 ∧
    ((start false 0).withStack (Vector.replicate 16 0x300) 16).sp.val ≠ 0 := by decide

theorem witness_CallPushesOrOverflows :
    ((start false 0).withStack (Vector.replicate 16 0x300) 15).sp.val < 16 ∧
    ((start false 0).withStack (Vector.replicate 16 0x300) 16).sp.val = 16 ∧ (start false 0).sp.val < 16 := by decide

theorem witness_RetUndoesCall :
    (start false 0).sp.val < 16 ∧ ∃ u w : State, exec (.call 0x300) (start false 0) = .next u ∧ w.stack = u.stack ∧ w.sp = u.sp := ⟨by decide, _, _, rfl, rfl, rfl⟩

theorem witness_ShiftsFollowTheMode :
    (0x81 : Byte) = (if (start true 0).cfg.schipMode = true then ((start true 0).setV 1 0x81).getV 1 else 0) ∧
    (0x03 : Byte) = (if (start false 0).cfg.schipMode = true then 0 else ((start false 0).setV 2 0x03).getV 2) := by decide

theorem witness_GlyphAddressesOrReport :
    (((start false 0).setV 4 9).getV 4).toNat ≤ 9 ∧ 9 < (((start false 0).setV 4 10).getV 4).toNat ∧
    9 < (((start false 0).setV 4 255).getV 4).toNat := by decide

theorem witness_BcdDigitsStored :
    ((start false 0).withI 0xFFD).wf = true ∧ ((start false 0).withI 0xFFD).iAddr + 2 < 4096 ∧
    ((start false 0).withI 0xFFE).wf = true ∧ 4096 ≤ ((start false 0).withI 0xFFE).iAddr + 2 ∧
    4096 ≤ ((start false 0).withI 0xFFFF).iAddr + 2 := by decide

theorem witness_StoreRegistersToMemory :
    ((start false 0).withI 0xFF0).wf = true ∧ ((start false 0).withI 0xFF0).iAddr + (0xF : Nibble).toNat < 4096 ∧
    ((start true 0).withI 0xFF1).wf = true ∧ 4096 ≤ ((start true 0).withI 0xFF1).iAddr + (0xF : Nibble).toNat ∧
    ((start false 0).withI 0xFFF).iAddr + (0x0 : Nibble).toNat < 4096 := by decide

theorem witness_LoadRegistersFromMemory :
    ((start false 0).withI 0xFF0).iAddr + (0xF : Nibble).toNat < 4096 ∧
    4096 ≤ ((start true 0).withI 0xFF1).iAddr + (0xF : Nibble).toNat ∧ 4096 ≤ ((start true 0).withI 0x1000).iAddr := by decide

theorem witness_DrawXorsSprite :
    ((start false 0).withI 0xFFF).wf = true ∧
    ((1 : Nibble) = 0 ∨ ((start false 0).withI 0xFFF).iAddr + (1 : Nibble).toNat ≤ 4096) ∧
    ((0 : Nibble) = 0 ∨ ((start false 0).withI 0xFFFF).iAddr + (0 : Nibble).toNat ≤ 4096) ∧
    (2 : Nibble) ≠ 0 ∧ 4096 < ((start false 0).withI 0xFFF).iAddr + (2 : Nibble).toNat := by decide

theorem witness_DrawTwiceRestores :
    (start false 0).wf = true ∧ (0 : Nibble) ≠ 0xF ∧ (1 : Nibble) ≠ 0xF ∧
    ((5 : Nibble) = 0 ∨ (start false 0).iAddr + (5 : Nibble).toNat ≤ 4096) ∧ ∃ t, exec (.drw 0 1 5) (start false 0) = .next t := ⟨by decide, by decide, by decide, by decide, ⟨(start false 0).drawSprite 0 1 ((start false 0).peekBlock 0 5), rfl⟩⟩

theorem witness_ScrollsMovePixels :
    (withPixels (start true 0) true [(127, 63)]).wf = true ∧ (start true 0).wf = true ∧
    (start true 0).cfg.schipMode = true := by
  refine ⟨?_, by decide, by decide⟩
  rw [State.wf, Bool.and_eq_true]
  exact ⟨by decide, Screen.wf_flip (w := 128) (h := 64) (Screen.wf_blank 128 64)⟩

theorem witness_KeySkipsReadTheLatch :
    (((start false 0).setV 5 15).getV 5).toNat = (15 : Fin 16).val ∧ 16 ≤ (((start false 0).setV 5 16).getV 5).toNat := by decide

theorem witness_KeyWaitEntered :
    ((start false 0).withWait true 3).awaiting = true ∧ ((start false 0).withWait true 3).stopped = false ∧
    ∀ k : Fin 16, ((start false 0).withWait true 3).keys[k] = false := by decide

theorem witness_ExitSetsQuit :
    (start true 0x00FD).cfg.schipMode = true ∧ ((start true 0).withQuit true).quit = true := by decide

theorem witness_SaveRegistersToRpl :
    (start true 0).cfg.schipMode = true ∧ (7 : Nibble).toNat ≤ 7 ∧ 7 < (8 : Nibble).toNat := by decide

theorem witness_LoadRegistersFromRpl :
    (start true 0).cfg.schipMode = true ∧ (7 : Nibble).toNat ≤ 7 ∧ 7 < (8 : Nibble).toNat := by decide

theorem witness_ResolutionSelectClears :
    (start true 0x00FF).cfg.schipMode = true := by decide

theorem witness_SchipOnlyIsReportedInBaseMode :
    (start false 0).cfg.schipMode = false ∧ isSchipOnly (.scd 3) = true ∧ isSchipOnly (.loadRpl 1) = true := by decide

end Sys2Proof.Machine.Tests
end

section
/-! PROOFS. What a tick is made of, and the frame of the two fields that only the host sets: the configuration (R9) and
the key latch (R40). -/

namespace Sys2Proof.Machine

/-! ### What a tick can do (R340) -/

/-- The end of a tick answers a state only from one that the instruction answered. -/
theorem finishTick_next {r : Result} {t : State} (h : finishTick r = .next t) : ∃ u, r = .next u ∧ t = u.endTick := by
  cases r with
  | next u => exact ⟨u, rfl, (Host.Outcome.next.inj h).symm⟩
  | fault f => cases h
  | refused f => cases h

/-- Fetching and executing either records the fetch's fault, or executes the fetched word with `PC` advanced and ends the
tick. -/
theorem State.fetchExecute_cases {s t : State} (h : s.fetchExecute = .next t) :
    (∃ f, s.fetch = .error f ∧ t = s.raise f) ∨
    ∃ op r, s.fetch = .ok op ∧ execWord op s.advancePc = .next r ∧ t = r.endTick := by
  unfold State.fetchExecute at h
  split at h
  next f hf => exact .inl ⟨f, hf, (Host.Outcome.next.inj h).symm⟩
  next op hf =>
    obtain ⟨r, hr, ht⟩ := finishTick_next h
    exact .inr ⟨op, r, hf, hr, ht⟩

/-- A tick that answers either leaves the state as it is, or fetches and executes in the state the key scan gives. -/
theorem step_cases {s t : State} (h : step s = .next t) :
    ((s.stopped = true ∨ s.scanKeys = none) ∧ t = s) ∨
    ∃ u, s.stopped = false ∧ s.scanKeys = some u ∧ u.fetchExecute = .next t := by
  unfold step tick at h
  split at h
  next hs => exact .inl ⟨.inl hs, (Host.Outcome.next.inj h).symm⟩
  next hs =>
    split at h
    next hk => exact .inl ⟨.inr hk, (Host.Outcome.next.inj h).symm⟩
    next u hk => exact .inr ⟨u, Bool.eq_false_iff.mpr hs, hk, h⟩

/-- The key scan that lets a tick go on either leaves the state as it is, or ends a wait: the pressed key's number goes to
the target register (R342). -/
theorem State.scanKeys_some {s u : State} (h : s.scanKeys = some u) :
    (s.awaiting = false ∧ u = s) ∨
    ∃ k, s.awaiting = true ∧ s.firstKey = some k ∧
      u = (s.setV s.target (BitVec.ofNat 8 k)).withWait false s.target := by
  unfold State.scanKeys at h
  split at h
  next ha =>
    split at h
    next => cases h
    next k hk => exact .inr ⟨k, ha, hk, (Option.some.inj h).symm⟩
  next ha => exact .inl ⟨Bool.eq_false_iff.mpr ha, (Option.some.inj h).symm⟩

/-! ### The frame of the configuration and the key latch -/

/-- `t` has the configuration and the key latch of `s`. -/
def SameConfigKeys (s t : State) : Prop := t.cfg = s.cfg ∧ t.keys = s.keys

theorem SameConfigKeys.refl (s : State) : SameConfigKeys s s := ⟨rfl, rfl⟩

theorem SameConfigKeys.trans {s t u : State} (hst : SameConfigKeys s t) (htu : SameConfigKeys t u) :
    SameConfigKeys s u :=
  ⟨htu.1.trans hst.1, htu.2.trans hst.2⟩

/-- What an instruction answers keeps the frame when the state it computes does. -/
theorem SameConfigKeys.of_next {s u t : State} (h : (.next u : Result) = .next t) (hu : SameConfigKeys s u) :
    SameConfigKeys s t :=
  Host.Outcome.next.inj h ▸ hu

theorem State.sameConfigKeys_raise (s : State) (f : Fault) : SameConfigKeys s (s.raise f) := ⟨rfl, rfl⟩

theorem State.sameConfigKeys_report (s : State) (r : Report) : SameConfigKeys s (s.report r) := ⟨rfl, rfl⟩

theorem State.sameConfigKeys_skipIf (s : State) (c : Bool) : SameConfigKeys s (s.skipIf c) := by
  cases c <;> exact ⟨rfl, rfl⟩

theorem State.sameConfigKeys_advanceI (s : State) (x : Nibble) : SameConfigKeys s (s.advanceI x) := by
  unfold State.advanceI
  split <;> exact ⟨rfl, rfl⟩

theorem State.sameConfigKeys_endTick (s : State) : SameConfigKeys s s.endTick := by
  unfold State.endTick
  split <;> exact ⟨rfl, rfl⟩

theorem State.sameConfigKeys_setRegsFrom (s : State) (k : Nat) (bs : List Byte) :
    SameConfigKeys s (s.setRegsFrom k bs) := by
  rw [State.setRegsFrom_eq]
  exact ⟨rfl, rfl⟩

theorem State.sameConfigKeys_saveRplFrom (s : State) (k n : Nat) : SameConfigKeys s (s.saveRplFrom k n) := by
  rw [State.saveRplFrom_eq]
  exact ⟨rfl, rfl⟩

theorem State.sameConfigKeys_storeBlock_ok {s t : State} {a : Nat} {bs : List Byte} (h : s.storeBlock a bs = .ok t) :
    SameConfigKeys s t := by
  rw [(State.storeBlock_ok h).2, State.storeBytes_eq]
  exact ⟨rfl, rfl⟩

theorem State.sameConfigKeys_storeBlock_error {s t : State} {a : Nat} {bs : List Byte}
    (h : s.storeBlock a bs = .error t) : SameConfigKeys s t := by
  obtain ⟨-, -, ht⟩ := State.storeBlock_error h
  rw [ht]
  exact ⟨rfl, rfl⟩

theorem State.sameConfigKeys_loadBlock_ok {s t : State} {a n : Nat} (h : s.loadBlock a n = .ok t) :
    SameConfigKeys s t := by
  rw [(State.loadBlock_ok h).2]
  exact s.sameConfigKeys_setRegsFrom 0 _

theorem State.sameConfigKeys_loadBlock_error {s t : State} {a n : Nat} (h : s.loadBlock a n = .error t) :
    SameConfigKeys s t := by
  obtain ⟨-, -, ht⟩ := State.loadBlock_error h
  rw [ht]
  exact ⟨rfl, rfl⟩

/-- The mode gate keeps the frame when the gated effect does: in base mode it only reports (R113). -/
theorem State.sameConfigKeys_schipOnly {s : State} (i : Instr) {effect : State → State}
    (h : SameConfigKeys s (effect s)) : SameConfigKeys s (s.schipOnly i effect) := by
  unfold State.schipOnly
  split
  · exact h
  · exact s.sameConfigKeys_report _

/-! ### Instructions whose meaning branches -/

theorem sameConfigKeys_execRet {s t : State} (h : execRet s = .next t) : SameConfigKeys s t := by
  unfold execRet at h
  split at h <;> exact .of_next h ⟨rfl, rfl⟩

theorem sameConfigKeys_execCall {s t : State} {nnn : Addr12} (h : execCall nnn s = .next t) : SameConfigKeys s t := by
  unfold execCall at h
  split at h <;> exact .of_next h ⟨rfl, rfl⟩

theorem sameConfigKeys_execLdHF {s t : State} {x : Nibble} (h : execLdHF x s = .next t) : SameConfigKeys s t := by
  unfold execLdHF at h
  split at h <;> exact .of_next h ⟨rfl, rfl⟩

theorem sameConfigKeys_execDrw {s t : State} {x y n : Nibble} (h : execDrw x y n s = .next t) :
    SameConfigKeys s t := by
  unfold execDrw at h
  split at h <;> exact .of_next h ⟨rfl, rfl⟩

theorem sameConfigKeys_execSkp {s t : State} {x : Nibble} (h : execSkp x s = .next t) : SameConfigKeys s t := by
  unfold execSkp at h
  split at h
  · exact .of_next h (s.sameConfigKeys_raise _)
  · exact .of_next h (s.sameConfigKeys_skipIf _)

theorem sameConfigKeys_execSknp {s t : State} {x : Nibble} (h : execSknp x s = .next t) : SameConfigKeys s t := by
  unfold execSknp at h
  split at h
  · exact .of_next h (s.sameConfigKeys_raise _)
  · exact .of_next h (s.sameConfigKeys_skipIf _)

theorem sameConfigKeys_execLdB {s t : State} {x : Nibble} (h : execLdB x s = .next t) : SameConfigKeys s t := by
  unfold execLdB at h
  split at h
  next hb => exact .of_next h (State.sameConfigKeys_storeBlock_ok hb)
  next hb => exact .of_next h (State.sameConfigKeys_storeBlock_error hb)

theorem sameConfigKeys_execStoreRegs {s t : State} {x : Nibble} (h : execStoreRegs x s = .next t) :
    SameConfigKeys s t := by
  unfold execStoreRegs at h
  split at h
  next hb => exact .of_next h ((State.sameConfigKeys_storeBlock_ok hb).trans (State.sameConfigKeys_advanceI _ x))
  next hb => exact .of_next h (State.sameConfigKeys_storeBlock_error hb)

theorem sameConfigKeys_execLoadRegs {s t : State} {x : Nibble} (h : execLoadRegs x s = .next t) :
    SameConfigKeys s t := by
  unfold execLoadRegs at h
  split at h
  next hb => exact .of_next h ((State.sameConfigKeys_loadBlock_ok hb).trans (State.sameConfigKeys_advanceI _ x))
  next hb => exact .of_next h (State.sameConfigKeys_loadBlock_error hb)

theorem sameConfigKeys_execSaveRpl {s t : State} {x : Nibble} (h : execSaveRpl x s = .next t) :
    SameConfigKeys s t := by
  refine .of_next h (State.sameConfigKeys_schipOnly _ ?_)
  split
  · exact s.sameConfigKeys_report _
  · exact s.sameConfigKeys_saveRplFrom 0 _

theorem sameConfigKeys_execLoadRpl {s t : State} {x : Nibble} (h : execLoadRpl x s = .next t) :
    SameConfigKeys s t := by
  refine .of_next h (State.sameConfigKeys_schipOnly _ ?_)
  split
  · exact s.sameConfigKeys_report _
  · exact s.sameConfigKeys_setRegsFrom 0 _

/-! ### Every instruction, and the tick -/

/-- No instruction writes the configuration or the key latch, not even one that raises a fatal condition. -/
theorem sameConfigKeys_exec {i : Instr} {s t : State} (h : exec i s = .next t) : SameConfigKeys s t := by
  cases i with
  | cls | jp | ldImm | addImm | ldReg | orReg | andReg | xorReg | addReg | sub | shr | subn | shl | ldI | jpV0 | rnd
  | ldVxDT | ldVxK | ldDTVx | ldSTVx | addI | ldF => exact .of_next h ⟨rfl, rfl⟩
  | seImm | sneImm | seReg | sneReg => exact .of_next h (s.sameConfigKeys_skipIf _)
  | scd | scr | scl | exit | low | high => exact .of_next h (State.sameConfigKeys_schipOnly _ ⟨rfl, rfl⟩)
  | ret => exact sameConfigKeys_execRet h
  | call => exact sameConfigKeys_execCall h
  | drw => exact sameConfigKeys_execDrw h
  | skp => exact sameConfigKeys_execSkp h
  | sknp => exact sameConfigKeys_execSknp h
  | ldHF => exact sameConfigKeys_execLdHF h
  | ldB => exact sameConfigKeys_execLdB h
  | storeRegs => exact sameConfigKeys_execStoreRegs h
  | loadRegs => exact sameConfigKeys_execLoadRegs h
  | saveRpl => exact sameConfigKeys_execSaveRpl h
  | loadRpl => exact sameConfigKeys_execLoadRpl h

theorem sameConfigKeys_execReject {e : Reject} {s t : State} (h : execReject e s = .next t) : SameConfigKeys s t := by
  cases e with
  | unknownOpcode op => exact .of_next h (s.sameConfigKeys_report _)
  | truncated => exact .of_next h (.refl s)

theorem sameConfigKeys_execWord {op : Word} {s t : State} (h : execWord op s = .next t) : SameConfigKeys s t := by
  unfold execWord at h
  split at h
  · exact sameConfigKeys_exec h
  · exact sameConfigKeys_execReject h

theorem State.sameConfigKeys_scanKeys {s u : State} (h : s.scanKeys = some u) : SameConfigKeys s u := by
  obtain ⟨-, rfl⟩ | ⟨k, -, -, rfl⟩ := State.scanKeys_some h
  · exact .refl u
  · exact ⟨rfl, rfl⟩

theorem State.sameConfigKeys_fetchExecute {s t : State} (h : s.fetchExecute = .next t) : SameConfigKeys s t := by
  obtain ⟨f, -, rfl⟩ | ⟨op, r, -, hr, rfl⟩ := State.fetchExecute_cases h
  · exact s.sameConfigKeys_raise f
  · have hfetch : SameConfigKeys s s.advancePc := ⟨rfl, rfl⟩
    exact (hfetch.trans (sameConfigKeys_execWord hr)).trans r.sameConfigKeys_endTick

/-- A tick writes neither the configuration nor the key latch. -/
theorem sameConfigKeys_step {s t : State} (h : step s = .next t) : SameConfigKeys s t := by
  obtain ⟨-, rfl⟩ | ⟨u, -, hscan, hrun⟩ := step_cases h
  · exact .refl t
  · exact (State.sameConfigKeys_scanKeys hscan).trans (State.sameConfigKeys_fetchExecute hrun)

/-- Settles O16: the key scan, the fetch, every instruction and the end of a tick each keep both fields. -/
theorem tickKeepsConfigurationAndKeys : Obligations.TickKeepsConfigurationAndKeys :=
  fun _ _ => sameConfigKeys_step

end Sys2Proof.Machine
end

section
/-! PROOFS. Which fields an instruction writes (10_state.md): one inversion lemma says what `exec` can answer, and each
field's frame is read off it. -/

namespace Sys2Proof.Machine

/-! ### Registers above a transfer, and the post-increment -/

/-- A run of register writes from `V[0]` on leaves every register above its end. -/
theorem State.getV_setRegsFrom_above (s : State) {bs : List Byte} {r : Nibble} (h : bs.length ≤ r.toNat) :
    (s.setRegsFrom 0 bs).getV r = s.getV r := by
  have hr := r.isLt
  rw [State.getV_setRegsFrom s 0 bs (by omega), if_pos (Nat.zero_le _), List.getElem?_eq_none (by omega), Option.getD_none]

/-- A load that runs off memory leaves every register above its end, whichever bytes it transferred (R81, log 4). -/
theorem State.getV_loadBlock_error {s t : State} {a n : Nat} (h : s.loadBlock a n = .error t) {r : Nibble}
    (hr : n ≤ r.toNat) : t.getV r = s.getV r := by
  obtain ⟨-, hoff, -⟩ := State.loadBlock_error h
  unfold State.loadBlock at h
  split at h
  · cases h
  · rw [← Except.error.inj h]
    exact State.getV_loadSome_above _ s 0 _ r (by rw [State.length_peekBlock]; omega)

/-- The post-increment of a block transfer writes `I` alone. -/
theorem State.advanceI_eq (s : State) (x : Nibble) : s.advanceI x = { s with i := (s.advanceI x).i } := by
  unfold State.advanceI
  split <;> rfl

/-- In SCHIP mode a block transfer does not advance `I` (R215). -/
theorem State.advanceI_of_schip {s : State} (h : s.cfg.schipMode = true) (x : Nibble) : s.advanceI x = s := if_pos h

/-! ### What an instruction can answer -/

/-- `t` has every general register of `s` that the rules do not let `i` write (R32). -/
def KeepsUnlistedV (i : Instr) (s t : State) : Prop := ∀ r, mayWriteV r i = false → t.getV r = s.getV r

/-- What `exec i` can answer from `s`, by the fields it writes. The two block transfers may end in a raise, so their
count of draws and their `fault` are left open. -/
inductive Effect (s : State) : Instr → State → Prop
  | raised {i : Instr} (f : Fault) : Effect s i (s.raise f)
  | reported {i : Instr} (r : Report) : Effect s i (s.report r)
  | registers {i : Instr} {v : Vector Byte 16} {n : Nat} (hv : KeepsUnlistedV i s (s.withV v)) :
      Effect s i ((s.withV v).withDraws n)
  | index {i : Instr} (hi : mayWriteI s.cfg.schipMode i = true) (a : Word) : Effect s i (s.withI a)
  | control {i : Instr} (hpc : mayWritePc i = true) (pc : Word) : Effect s i (s.withPc pc)
  | callStack {i : Instr} (hpc : mayWritePc i = true) (hstack : mayWriteStack i = true) (stack : Vector Word 16)
      (sp : Fin 17) (pc : Word) : Effect s i ((s.withStack stack sp).withPc pc)
  | stored {i : Instr} {mem : Memory} {a : Word} {n : Nat} {f : Option Fault} (hm : mayWriteMemory i = true)
      (hi : mayWriteI s.cfg.schipMode i = false → a = s.i) :
      Effect s i { s with mem := mem, i := a, draws := n, fault := f }
  | loaded {i : Instr} {v : Vector Byte 16} {a : Word} {n : Nat} {f : Option Fault}
      (hv : KeepsUnlistedV i s (s.withV v)) (hi : mayWriteI s.cfg.schipMode i = false → a = s.i) :
      Effect s i { s with v := v, i := a, draws := n, fault := f }
  | picture {i : Instr} {hires : Bool} {fb : Screen} (hs : mayWriteScreen i = true)
      (hh : mayWriteHires i = false → hires = s.hires) : Effect s i (s.withScreen hires fb true)
  | drawn (x y n : Nibble) (fb : Screen) (lit : Bool) (flag : Byte) :
      Effect s (.drw x y n) ((s.withScreen s.hires fb (s.changed || lit)).setVF flag)
  | delayTimer (x : Nibble) : Effect s (.ldDTVx x) (s.withTimers (s.getV x) s.st)
  | soundTimer (x : Nibble) : Effect s (.ldSTVx x) (s.withTimers s.dt (s.getV x))
  | keyWait (x : Nibble) : Effect s (.ldVxK x) (s.withWait true x)
  | rplBytes (x : Nibble) (rpl : Vector Byte 8) : Effect s (.saveRpl x) (s.withRpl rpl)
  | quitting : Effect s .exit (s.withQuit true)

namespace Effect

variable {s t u : State} {i : Instr}

theorem of_next (h : (.next u : Result) = .next t) (hu : Effect s i u) : Effect s i t := Host.Outcome.next.inj h ▸ hu

/-- One register written, the only one the rules list for the instruction. -/
theorem of_setV {x : Nibble} {b : Byte} (hx : ∀ r, mayWriteV r i = (r == x)) : Effect s i (s.setV x b) :=
  registers fun r hr => s.getV_setV_of_ne b (ne_of_beq_false ((hx r).symm.trans hr))

/-- A result and its flag written, to the two registers the rules list for the instruction (R171). -/
theorem of_setResultFlag {x : Nibble} {b flag : Byte} (hx : ∀ r, mayWriteV r i = (r == x || r == 0xF)) :
    Effect s i (s.setResultFlag x b flag) := by
  refine registers fun r hr => ?_
  obtain ⟨hrx, hrF⟩ := Bool.or_eq_false_iff.mp ((hx r).symm.trans hr)
  exact ((s.setV x b).getV_setV_of_ne flag (ne_of_beq_false hrF)).trans (s.getV_setV_of_ne b (ne_of_beq_false hrx))

/-- The registers `V0..Vx` written. -/
theorem keepsUnlistedV_setRegsFrom {x : Nibble} {bs : List Byte} (hx : ∀ r, mayWriteV r i = decide (r.toNat ≤ x.toNat))
    (hbs : bs.length = regCount x) : KeepsUnlistedV i s (s.setRegsFrom 0 bs) := by
  intro r hr
  have hlt := of_decide_eq_false ((hx r).symm.trans hr)
  exact s.getV_setRegsFrom_above (by rw [hbs, regCount]; omega)

theorem of_skipIf {c : Bool} (hpc : mayWritePc i = true) : Effect s i (s.skipIf c) := by
  cases c
  · exact control hpc s.pc
  · exact control hpc (s.pc + 2)

/-- A gated instruction has its own effect in SCHIP mode and reports in base mode (R113). -/
theorem of_schipOnly {j : Instr} {effect : State → State} (h : Effect s i (effect s)) :
    Effect s i (s.schipOnly j effect) := by
  unfold State.schipOnly
  split
  · exact h
  · exact reported _

end Effect

/-! ### Instructions whose meaning branches -/

section Branching
variable {s t : State} {x y n : Nibble}

theorem effect_execRet (h : execRet s = .next t) : Effect s .ret t := by
  unfold execRet at h
  split at h
  · exact .of_next h (.raised _)
  · exact .of_next h (.callStack rfl rfl _ _ _)

theorem effect_execCall {nnn : Addr12} (h : execCall nnn s = .next t) : Effect s (.call nnn) t := by
  unfold execCall at h
  split at h
  · exact .of_next h (.callStack rfl rfl _ _ _)
  · exact .of_next h (.raised _)

theorem effect_execSkp (h : execSkp x s = .next t) : Effect s (.skp x) t := by
  unfold execSkp at h
  split at h
  · exact .of_next h (.raised _)
  · exact .of_next h (.of_skipIf rfl)

theorem effect_execSknp (h : execSknp x s = .next t) : Effect s (.sknp x) t := by
  unfold execSknp at h
  split at h
  · exact .of_next h (.raised _)
  · exact .of_next h (.of_skipIf rfl)

theorem effect_execDrw (h : execDrw x y n s = .next t) : Effect s (.drw x y n) t := by
  unfold execDrw at h
  split at h
  · exact .of_next h (.raised _)
  · exact .of_next h (.drawn x y n _ _ _)

theorem effect_execLdHF (h : execLdHF x s = .next t) : Effect s (.ldHF x) t := by
  unfold execLdHF at h
  split at h
  · exact .of_next h (.reported _)
  · exact .of_next h (.index rfl _)

/-- A store that runs off memory writes no field the stores may not write, `I` included. -/
theorem effect_storeBlock_error {i : Instr} {a : Nat} {bs : List Byte} (hm : mayWriteMemory i = true)
    (h : s.storeBlock a bs = .error t) : Effect s i t := by
  obtain ⟨-, -, ht⟩ := State.storeBlock_error h
  rw [ht]
  exact .stored hm fun _ => rfl

theorem effect_execLdB (h : execLdB x s = .next t) : Effect s (.ldB x) t := by
  unfold execLdB at h
  split at h
  next u hu =>
    refine .of_next h ?_
    rw [(State.storeBlock_ok hu).2, State.storeBytes_eq]
    exact .stored rfl fun _ => rfl
  next u hu => exact .of_next h (effect_storeBlock_error rfl hu)

/-- A block transfer that the rules do not let write `I` is in SCHIP mode and leaves it. -/
theorem advanceI_i_of_mayWriteI {u : State} {i : Instr} (hcfg : u.cfg = s.cfg) (hu : u.i = s.i)
    (hx : ∀ b, mayWriteI b i = !b) (h : mayWriteI s.cfg.schipMode i = false) : (u.advanceI x).i = s.i := by
  rw [hx, Bool.not_eq_false'] at h
  rw [State.advanceI_of_schip (by rw [hcfg, h]), hu]

theorem effect_execStoreRegs (h : execStoreRegs x s = .next t) : Effect s (.storeRegs x) t := by
  unfold execStoreRegs at h
  split at h
  next u hu =>
    refine .of_next h ?_
    rw [State.advanceI_eq, (State.storeBlock_ok hu).2, State.storeBytes_eq]
    exact .stored rfl (advanceI_i_of_mayWriteI rfl rfl fun _ => rfl)
  next u hu => exact .of_next h (effect_storeBlock_error rfl hu)

theorem effect_execLoadRegs (h : execLoadRegs x s = .next t) : Effect s (.loadRegs x) t := by
  unfold execLoadRegs at h
  split at h
  next u hu =>
    refine .of_next h ?_
    rw [State.advanceI_eq, (State.loadBlock_ok hu).2, State.setRegsFrom_eq]
    exact .loaded (Effect.keepsUnlistedV_setRegsFrom (fun _ => rfl) (s.length_peekBlock _ _))
      (advanceI_i_of_mayWriteI rfl rfl fun _ => rfl)
  next u hu =>
    have hv : KeepsUnlistedV (.loadRegs x) s u := fun r hr =>
      State.getV_loadBlock_error hu (Nat.not_le.mp (of_decide_eq_false hr))
    obtain ⟨-, -, hu⟩ := State.loadBlock_error hu
    refine .of_next h ?_
    rw [hu]
    exact .loaded hv fun _ => rfl

theorem effect_execSaveRpl (h : execSaveRpl x s = .next t) : Effect s (.saveRpl x) t := by
  refine .of_next h (.of_schipOnly ?_)
  split
  · exact .reported _
  · rw [State.saveRplFrom_eq]
    exact .rplBytes x _

theorem effect_execLoadRpl (h : execLoadRpl x s = .next t) : Effect s (.loadRpl x) t := by
  refine .of_next h (.of_schipOnly ?_)
  split
  · exact .reported _
  · rw [State.setRegsFrom_eq]
    exact .registers (Effect.keepsUnlistedV_setRegsFrom (fun _ => rfl) (s.length_rplFrom _ _))

end Branching

/-- Every instruction's answer is one of the listed effects, whether or not it raises a fatal condition. -/
theorem effect_exec {i : Instr} {s t : State} (h : exec i s = .next t) : Effect s i t := by
  cases i with
  | ldImm | addImm | ldReg | orReg | andReg | xorReg | ldVxDT => exact .of_next h (.of_setV fun _ => rfl)
  | addReg | sub | shr | subn | shl => exact .of_next h (.of_setResultFlag fun _ => rfl)
  | rnd x kk =>
    exact .of_next h (.registers fun r hr => s.getV_setV_of_ne _ (ne_of_beq_false hr))
  | ldI | addI | ldF => exact .of_next h (.index rfl _)
  | jp | jpV0 => exact .of_next h (.control rfl _)
  | seImm | sneImm | seReg | sneReg => exact .of_next h (.of_skipIf rfl)
  | cls => exact .of_next h (.picture rfl fun _ => rfl)
  | scd | scr | scl => exact .of_next h (.of_schipOnly (.picture rfl fun _ => rfl))
  | low | high => exact .of_next h (.of_schipOnly (.picture rfl nofun))
  | exit => exact .of_next h (.of_schipOnly .quitting)
  | ldVxK x => exact .of_next h (.keyWait x)
  | ldDTVx x => exact .of_next h (.delayTimer x)
  | ldSTVx x => exact .of_next h (.soundTimer x)
  | ret => exact effect_execRet h
  | call => exact effect_execCall h
  | skp => exact effect_execSkp h
  | sknp => exact effect_execSknp h
  | drw => exact effect_execDrw h
  | ldHF => exact effect_execLdHF h
  | ldB => exact effect_execLdB h
  | storeRegs => exact effect_execStoreRegs h
  | loadRegs => exact effect_execLoadRegs h
  | saveRpl => exact effect_execSaveRpl h
  | loadRpl => exact effect_execLoadRpl h

/-! ### The frame of each field -/

namespace Effect

variable {s t : State} {i : Instr} (h : Effect s i t)
include h

theorem dt_eq (hi : ∀ x, i ≠ .ldDTVx x) : t.dt = s.dt := by
  cases h with
  | delayTimer x => exact absurd rfl (hi x)
  | _ => rfl

theorem st_eq (hi : ∀ x, i ≠ .ldSTVx x) : t.st = s.st := by
  cases h with
  | soundTimer x => exact absurd rfl (hi x)
  | _ => rfl

theorem i_eq (hi : mayWriteI s.cfg.schipMode i = false) : t.i = s.i := by
  cases h with
  | index hw => cases hw.symm.trans hi
  | stored _ ha | loaded _ ha => exact ha hi
  | _ => rfl

theorem pc_eq (hi : mayWritePc i = false) : t.pc = s.pc := by
  cases h with
  | control hw | callStack hw => cases hw.symm.trans hi
  | _ => rfl

theorem stack_sp_eq (hi : mayWriteStack i = false) : t.stack = s.stack ∧ t.sp = s.sp := by
  cases h with
  | callStack _ hw => cases hw.symm.trans hi
  | _ => exact ⟨rfl, rfl⟩

theorem keepsUnlistedV : KeepsUnlistedV i s t := by
  intro r hr
  cases h with
  | registers hv | loaded hv => exact hv r hr
  | drawn => exact State.getV_setV_of_ne _ _ (ne_of_beq_false hr)
  | _ => rfl

theorem hires_eq (hi : mayWriteHires i = false) : t.hires = s.hires := by
  cases h with
  | picture _ hh => exact hh hi
  | _ => rfl

theorem fb_changed_eq (hi : mayWriteScreen i = false) : t.fb = s.fb ∧ t.changed = s.changed := by
  cases h with
  | picture hw => cases hw.symm.trans hi
  | drawn => cases hi
  | _ => exact ⟨rfl, rfl⟩

/-- No instruction clears the changed flag: a new picture sets it, and a draw only adds to it (R43). -/
theorem changed_of_changed (hs : s.changed = true) : t.changed = true := by
  cases h with
  | picture => rfl
  | drawn _ _ _ _ lit => exact congrArg (· || lit) hs
  | _ => exact hs

theorem awaiting_target_eq (hi : ∀ x, i ≠ .ldVxK x) : t.awaiting = s.awaiting ∧ t.target = s.target := by
  cases h with
  | keyWait x => exact absurd rfl (hi x)
  | _ => exact ⟨rfl, rfl⟩

theorem rpl_eq (hi : ∀ x, i ≠ .saveRpl x) : t.rpl = s.rpl := by
  cases h with
  | rplBytes x => exact absurd rfl (hi x)
  | _ => rfl

theorem quit_eq (hi : i ≠ .exit) : t.quit = s.quit := by
  cases h with
  | quitting => exact absurd rfl hi
  | _ => rfl

end Effect

/-- The timer step takes one off a timer, down to 0 (R344). -/
theorem toNat_timerDec (b : Byte) : (timerDec b).toNat = b.toNat - 1 := by
  unfold timerDec
  split <;> bv_omega

/-! ### The obligations

The frames above hold also of an instruction that raises a fatal condition, so no proof needs that hypothesis. -/

/-- Settles O12: `DT` and `ST` are each written by one effect alone, and the timer step is `toNat_timerDec`. -/
theorem timersWrittenOnlyBySetAndStep : Obligations.TimersWrittenOnlyBySetAndStep :=
  ⟨fun _ _ _ h _ => ⟨(effect_exec h).dt_eq, (effect_exec h).st_eq⟩, toNat_timerDec⟩

/-- Settles O18: apart from the listed loads and adds only a block transfer's effect writes `I`, and in SCHIP mode it does
not. -/
theorem onlyListedInstructionsWriteIndex : Obligations.OnlyListedInstructionsWriteIndex :=
  fun _ _ _ h _ => (effect_exec h).i_eq

/-- Settles O19: the control effects alone write `PC`, and of these the call-stack effect alone the stack. -/
theorem onlyControlTransfersWritePcAndStack : Obligations.OnlyControlTransfersWritePcAndStack :=
  fun _ _ _ h _ => ⟨(effect_exec h).pc_eq, (effect_exec h).stack_sp_eq⟩

/-- Settles O20: every effect that writes registers keeps those not listed for the instruction. -/
theorem onlyListedInstructionsWriteRegisters : Obligations.OnlyListedInstructionsWriteRegisters :=
  fun _ _ _ r h _ => (effect_exec h).keepsUnlistedV r

/-- Settles O21: the screen is written by a new picture, which is marked changed, and by a draw. -/
theorem onlyDisplayInstructionsWriteScreen : Obligations.OnlyDisplayInstructionsWriteScreen :=
  fun _ _ _ h _ => ⟨(effect_exec h).hires_eq, (effect_exec h).fb_changed_eq, (effect_exec h).changed_of_changed⟩

/-- Settles O22: the key-wait state, the RPL bytes and the quit flag are each written by one effect alone. -/
theorem onlyTheirInstructionsWriteWaitRplQuit : Obligations.OnlyTheirInstructionsWriteWaitRplQuit :=
  fun _ _ _ h _ => ⟨(effect_exec h).awaiting_target_eq, (effect_exec h).rpl_eq, (effect_exec h).quit_eq⟩

end Sys2Proof.Machine
end

section
/-! PROOFS. Memory (20_memory.md): which instructions write it, the fetch of a word placed at `PC`, and the invariant of
the machine, its memory half and its framebuffer half apart, through every instruction and the tick. -/

namespace Sys2Proof.Machine

/-! ### The frame of memory (R71) -/

/-- Only the effect of a store writes memory. -/
theorem Effect.mem_eq {s t : State} {i : Instr} (h : Effect s i t) (hi : mayWriteMemory i = false) : t.mem = s.mem := by
  cases h with
  | stored hw => cases hw.symm.trans hi
  | _ => rfl

/-- Equal memories under one configuration read the same. -/
theorem sameMemory_of_mem_eq {s t : State} (hcfg : t.cfg = s.cfg) (hmem : t.mem = s.mem) : SameMemory s t := by
  intro a
  rw [State.readByte, State.readByte, hcfg, hmem]

/-- Settles O17: of the effects only a store writes memory, and no instruction writes the configuration, which says what
an unlisted address reads as. It holds also of an instruction that raises a fatal condition. -/
theorem onlyStoresWriteMemory : Obligations.OnlyStoresWriteMemory := by
  intro i s t h _ hi
  have hmem : t.mem = s.mem := (effect_exec h).mem_eq hi
  exact ⟨hmem, sameMemory_of_mem_eq (sameConfigKeys_exec h).1 hmem⟩

/-! ### The two halves of the invariant -/

/-- Memory is in its canonical form. -/
def State.MemWf (s : State) : Prop := Memory.wf (resetByte s.cfg) s.mem = true

/-- The framebuffer has the dimensions of the current resolution. -/
def State.ScreenWf (s : State) : Prop := Screen.wf (widthOf s.hires) (heightOf s.hires) s.fb = true

theorem State.wf_iff {s : State} : s.wf = true ↔ s.MemWf ∧ s.ScreenWf := Bool.and_eq_true_iff

theorem State.MemWf.of_eq {s t : State} (h : s.MemWf) (hcfg : t.cfg = s.cfg) (hmem : t.mem = s.mem) : t.MemWf := by
  rw [State.MemWf, hcfg, hmem]
  exact h

theorem State.ScreenWf.of_eq {s t : State} (h : s.ScreenWf) (hhires : t.hires = s.hires) (hfb : t.fb = s.fb) :
    t.ScreenWf := by
  rw [State.ScreenWf, hhires, hfb]
  exact h

/-! ### The fetch of a stored word (R78, R84) -/

/-- A word placed at `PC`, high byte first, is the word the fetch reads. -/
theorem State.fetch_placeWord {s : State} (h : s.MemWf) (hpc : s.pc.toNat + 1 < memSize) (op : Word) :
    (s.placeWord op).fetch = .ok op := by
  have hu : (s.writeByte s.pc.toNat (hiByte op)).MemWf := s.wf_writeByte h (by omega) _
  have hread (a : Nat) : (s.placeWord op).readByte a =
      if a = s.pc.toNat + 1 then loByte op else if a = s.pc.toNat then hiByte op else s.readByte a := by
    rw [State.placeWord, State.readByte_writeByte _ hu, State.readByte_writeByte _ h]
  have hpc' : (s.placeWord op).pc = s.pc := rfl
  rw [State.fetch_of_fits (s.placeWord op) hpc, hpc', hread, hread, if_neg (by omega), if_pos rfl, if_pos rfl,
    wordOfBytes_bytes]

/-- Settles O7: of a number below 65536 the table's word is the number itself, and the fetch reads the word placed. -/
theorem fetchReadsStoredWord : Obligations.FetchReadsStoredWord := by
  intro s w h hpc hw
  have hword : tableWord 16 w = BitVec.ofNat 16 w := congrArg (BitVec.ofNat 16) (Nat.mod_eq_of_lt hw)
  rw [State.withFetchWord, hword]
  exact State.fetch_placeWord (State.wf_iff.mp h).1 hpc _

/-! ### Memory stays canonical -/

/-- A multi-byte store that fits memory keeps it canonical. -/
theorem State.memWf_storeBlock_ok {s t : State} {a : Nat} {bs : List Byte} (hs : s.MemWf)
    (h : s.storeBlock a bs = .ok t) : t.MemWf := by
  obtain ⟨hfits, rfl⟩ := State.storeBlock_ok h
  rw [State.MemWf, State.storeBytes_cfg]
  rcases hfits with hnil | hfits
  · rw [List.eq_nil_of_length_eq_zero hnil]
    exact hs
  · exact s.wf_storeBytes hs a bs hfits

/-- A multi-byte store that runs off memory stores nothing at or past its end, so it keeps memory canonical, whichever
bytes it stored (R81, log 4). -/
theorem State.memWf_storeBlock_error {s t : State} {a : Nat} {bs : List Byte} (hs : s.MemWf)
    (h : s.storeBlock a bs = .error t) : t.MemWf := by
  obtain ⟨hne, hoff, ht⟩ := State.storeBlock_error h
  have hcfg : t.cfg = s.cfg := by rw [ht]
  rw [State.storeBlock, firstOutOfRange_some hne hoff] at h
  have hmem : t.mem = (State.storeSome s.draws s a 0 (bs.take (max a memSize - a))).mem := by
    rw [← Except.error.inj h]
    rfl
  rw [State.MemWf, hcfg, hmem]
  rcases Nat.le_total a memSize with hin | hout
  · exact s.wf_storeSome _ hs a 0 _ (by rw [List.length_take]; omega)
  · rw [Nat.max_eq_left hout, Nat.sub_self]
    exact hs

theorem memWf_execLdB {x : Nibble} {s t : State} (hs : s.MemWf) (h : execLdB x s = .next t) : t.MemWf := by
  unfold execLdB at h
  split at h
  next u hu => exact Host.Outcome.next.inj h ▸ State.memWf_storeBlock_ok hs hu
  next u hu => exact Host.Outcome.next.inj h ▸ State.memWf_storeBlock_error hs hu

theorem memWf_execStoreRegs {x : Nibble} {s t : State} (hs : s.MemWf) (h : execStoreRegs x s = .next t) : t.MemWf := by
  unfold execStoreRegs at h
  split at h
  next u hu =>
    rw [← Host.Outcome.next.inj h, State.advanceI_eq]
    exact (State.memWf_storeBlock_ok hs hu).of_eq rfl rfl
  next u hu => exact Host.Outcome.next.inj h ▸ State.memWf_storeBlock_error hs hu

/-- Every instruction keeps memory canonical: the two stores write within it, the others not at all (R71). -/
theorem memWf_exec {i : Instr} {s t : State} (hs : s.MemWf) (h : exec i s = .next t) : t.MemWf := by
  cases hi : mayWriteMemory i with
  | false => exact hs.of_eq (sameConfigKeys_exec h).1 ((effect_exec h).mem_eq hi)
  | true =>
    cases i with
    | ldB => exact memWf_execLdB hs h
    | storeRegs => exact memWf_execStoreRegs hs h
    | _ => cases hi

/-! ### The framebuffer keeps the dimensions of the resolution -/

/-- Only a screen instruction writes the resolution. -/
theorem mayWriteHires_of_not_mayWriteScreen {i : Instr} (hi : mayWriteScreen i = false) : mayWriteHires i = false := by
  cases i with
  | low | high => cases hi
  | _ => rfl

/-- A gated instruction keeps the dimensions when its effect does: in base mode it only reports (R113). -/
theorem State.screenWf_schipOnly {s : State} {i : Instr} {effect : State → State} (hs : s.ScreenWf)
    (heffect : (effect s).ScreenWf) : (s.schipOnly i effect).ScreenWf := by
  unfold State.schipOnly
  split
  · exact heffect
  · exact hs

theorem State.screenWf_setResolution (s : State) (hires : Bool) : (s.setResolution hires).ScreenWf :=
  Screen.wf_blank _ _

/-- Both resolutions are at least as wide as a scroll's step. -/
theorem four_le_widthOf (hires : Bool) : 4 ≤ widthOf hires := by
  cases hires <;> decide

theorem screenWf_execDrw {x y n : Nibble} {s t : State} (hs : s.ScreenWf) (h : execDrw x y n s = .next t) :
    t.ScreenWf := by
  unfold execDrw at h
  split at h
  next f hf => exact Host.Outcome.next.inj h ▸ hs
  next rows hrows => exact Host.Outcome.next.inj h ▸ Screen.wf_blit _ _ _ _ 0 rows s.fb hs

/-- Every instruction leaves the framebuffer at the dimensions of the resolution it leaves (R42): a draw, a scroll or a
clear keeps both, a resolution select sets both, the others write neither. -/
theorem screenWf_exec {i : Instr} {s t : State} (hs : s.ScreenWf) (h : exec i s = .next t) : t.ScreenWf := by
  cases hi : mayWriteScreen i with
  | false =>
    have hE := effect_exec h
    exact hs.of_eq (hE.hires_eq (mayWriteHires_of_not_mayWriteScreen hi)) (hE.fb_changed_eq hi).1
  | true =>
    cases i with
    | cls => exact Host.Outcome.next.inj h ▸ Screen.wf_blank _ _
    | drw => exact screenWf_execDrw hs h
    | scd n => exact Host.Outcome.next.inj h ▸ State.screenWf_schipOnly hs (Screen.wf_scrollDown hs _)
    | scr => exact Host.Outcome.next.inj h ▸ State.screenWf_schipOnly hs (Screen.wf_scrollRight hs)
    | scl => exact Host.Outcome.next.inj h ▸ State.screenWf_schipOnly hs (Screen.wf_scrollLeft hs (four_le_widthOf _))
    | low | high => exact Host.Outcome.next.inj h ▸ State.screenWf_schipOnly hs (s.screenWf_setResolution _)
    | _ => cases hi

/-! ### The invariant, through the tick (R340) -/

/-- Every instruction keeps the invariant, also one that raises a fatal condition. -/
theorem wf_exec {i : Instr} {s t : State} (hs : s.wf = true) (h : exec i s = .next t) : t.wf = true := by
  obtain ⟨hmem, hscreen⟩ := State.wf_iff.mp hs
  exact State.wf_iff.mpr ⟨memWf_exec hmem h, screenWf_exec hscreen h⟩

theorem wf_execReject {e : Reject} {s t : State} (hs : s.wf = true) (h : execReject e s = .next t) : t.wf = true := by
  cases e with
  | unknownOpcode | truncated => exact Host.Outcome.next.inj h ▸ hs

theorem wf_execWord {op : Word} {s t : State} (hs : s.wf = true) (h : execWord op s = .next t) : t.wf = true := by
  unfold execWord at h
  split at h
  · exact wf_exec hs h
  · exact wf_execReject hs h

theorem State.wf_endTick {s : State} (hs : s.wf = true) : s.endTick.wf = true := by
  unfold State.endTick
  split <;> exact hs

theorem State.wf_scanKeys {s u : State} (hs : s.wf = true) (h : s.scanKeys = some u) : u.wf = true := by
  obtain ⟨-, rfl⟩ | ⟨k, -, -, rfl⟩ := State.scanKeys_some h <;> exact hs

theorem State.wf_fetchExecute {s t : State} (hs : s.wf = true) (h : s.fetchExecute = .next t) : t.wf = true := by
  obtain ⟨f, -, rfl⟩ | ⟨op, r, -, hr, rfl⟩ := State.fetchExecute_cases h
  · exact hs
  · exact State.wf_endTick (wf_execWord (s := s.advancePc) hs hr)

/-- A tick keeps the invariant. -/
theorem wf_step {s t : State} (hs : s.wf = true) (h : step s = .next t) : t.wf = true := by
  obtain ⟨-, rfl⟩ | ⟨u, -, hscan, hrun⟩ := step_cases h
  · exact hs
  · exact State.wf_fetchExecute (State.wf_scanKeys hs hscan) hrun

/-- Settles O14: the key scan, the fetch, every instruction and the end of a tick each keep the invariant. -/
theorem stepKeepsInvariant : Obligations.StepKeepsInvariant :=
  fun _ _ => wf_step

end Sys2Proof.Machine
end

section
/-! PROOFS. The encoding (30_encoding.md): the decoder and the encoder are inverse to each other, the words it rejects
are those of R112, and what a tick does with the word it fetches. -/

namespace Sys2Proof

open Machine (IsUnknown)

/-! ### The decoder gives back every encoded instruction (R100, R103) -/

/-- Decoding the word of an instruction reads the family, then the fixed low bits where the family has any, and takes the
operands from the fields they were put in. -/
theorem decodeWord_encode (i : Instr) : decodeWord (encode i) = .ok i := by
  cases i with
  | cls | ret | scr | scl | exit | low | high => rfl
  | scd n => revert n; decide
  | jp | call | ldI | jpV0 => simp [encode, decodeWord]
  | seImm | sneImm | ldImm | addImm | rnd => simp [encode, decodeWord]
  | seReg | sneReg | drw => simp [encode, decodeWord]
  | ldReg | orReg | andReg | xorReg | addReg | sub | shr | subn | shl => simp [encode, decodeWord, decode8]
  | skp | sknp => simp [encode, decodeWord, decodeE]
  | ldVxDT | ldVxK | ldDTVx | ldSTVx | addI | ldF | ldHF | ldB | storeRegs | loadRegs | saveRpl | loadRpl =>
    simp [encode, decodeWord, decodeF]

/-- A byte string decodes by its first two bytes, and what follows them is the rest. -/
theorem decode_cons_cons_eq_ok_iff {hi lo : Byte} {rest rest' : List Byte} {i : Instr} :
    decode (hi :: lo :: rest) = .ok (i, rest') ↔ decodeWord (wordOfBytes hi lo) = .ok i ∧ rest = rest' := by
  rw [decode]
  cases decodeWord (wordOfBytes hi lo) <;> simp

/-- Settles O1: the two bytes of a word, high byte first, are the word, which decodes to the instruction. -/
theorem decodeOfEncode : Obligations.DecodeOfEncode := by
  intro i rest
  have hbytes : decodeWord (wordOfBytes (hiByte (encode i)) (loByte (encode i))) = .ok i := by
    rw [wordOfBytes_bytes, decodeWord_encode]
  exact ⟨decodeWord_encode i, decode_cons_cons_eq_ok_iff.mpr ⟨hbytes, rfl⟩⟩

/-- Settles O4: each word is the encoding of its row. -/
theorem wordsOfTheOpcodeMap : Obligations.WordsOfTheOpcodeMap :=
  ⟨decodeWord_encode .cls, decodeWord_encode .ret, decodeWord_encode (.jp 0x234), decodeWord_encode (.seImm 0xA 0x5C),
    decodeWord_encode (.subn 1 2), decodeWord_encode (.shl 1 2), decodeWord_encode (.sneReg 1 2),
    decodeWord_encode (.ldI 0x22A), decodeWord_encode (.drw 1 2 5), decodeWord_encode (.skp 3),
    decodeWord_encode (.ldB 5), decodeWord_encode (.scd 7), decodeWord_encode .exit, decodeWord_encode (.loadRpl 7)⟩

/-- Settles O5: each field as a number is a quotient or a remainder of the word. -/
theorem fieldsOfAWord : Obligations.FieldsOfAWord := by
  intro w
  have hw := w.isLt
  rw [toNat_fieldA, toNat_fieldX, toNat_fieldY, toNat_fieldN, toNat_fieldKK, toNat_fieldNNN]
  omega

/-! ### A word that decodes is the encoding of what it decodes to (R110) -/

section Assembly
variable {w : Word} {a : Nibble}

theorem wordADDR_of_fields {nnn : Addr12} (ha : fieldA w = a) (hnnn : fieldNNN w = nnn) : wordADDR a nnn = w := by
  rw [← ha, ← hnnn, wordADDR_fields]

theorem wordXKK_of_fields {kk : Byte} (ha : fieldA w = a) (hkk : fieldKK w = kk) : wordXKK a (fieldX w) kk = w := by
  rw [← ha, ← hkk, wordXKK_fields]

theorem wordXYN_of_fields {n : Nibble} (ha : fieldA w = a) (hn : fieldN w = n) :
    wordXYN a (fieldX w) (fieldY w) n = w := by
  rw [← ha, ← hn, wordXYN_fields]

end Assembly

section Families
variable {w : Word} {i : Instr}

/-- Each word of family 0 that decodes: six words fixed whole, and `00Cn`. -/
theorem encode_of_decode0 (ha : fieldA w = 0x0) (h : decode0 w = .ok i) : encode i = w := by
  unfold decode0 at h
  split at h
  case h_8 =>
    split at h
    next hxy =>
      cases h
      calc wordXYN 0x0 0x0 0xC (fieldN w) = wordXYN (fieldA w) (fieldX w) (fieldY w) (fieldN w) := by
            rw [ha, hxy.1, hxy.2]
        _ = w := wordXYN_fields w
    next => cases h
  all_goals
    next hnnn =>
      cases h
      exact wordADDR_of_fields ha (BitVec.eq_of_toNat_eq hnnn)

theorem encode_of_decode8 (ha : fieldA w = 0x8) (h : decode8 w = .ok i) : encode i = w := by
  unfold decode8 at h
  split at h
  case h_10 => cases h
  all_goals
    next hn =>
      cases h
      exact wordXYN_of_fields ha (BitVec.eq_of_toNat_eq hn)

theorem encode_of_decodeE (ha : fieldA w = 0xE) (h : decodeE w = .ok i) : encode i = w := by
  unfold decodeE at h
  split at h
  case h_3 => cases h
  all_goals
    next hkk =>
      cases h
      exact wordXKK_of_fields ha (BitVec.eq_of_toNat_eq hkk)

theorem encode_of_decodeF (ha : fieldA w = 0xF) (h : decodeF w = .ok i) : encode i = w := by
  unfold decodeF at h
  split at h
  case h_13 => cases h
  all_goals
    next hkk =>
      cases h
      exact wordXKK_of_fields ha (BitVec.eq_of_toNat_eq hkk)

/-- The cases are the families in rising order, so that case `h_1` is family 0. A family with one row has the whole word in
that row's operands, or in its operands and a low nibble 0; the others are the lemmas above. -/
theorem encode_of_decodeWord (h : decodeWord w = .ok i) : encode i = w := by
  unfold decodeWord at h
  split at h
  case h_1 ha => exact encode_of_decode0 (BitVec.eq_of_toNat_eq ha) h
  case h_9 ha => exact encode_of_decode8 (BitVec.eq_of_toNat_eq ha) h
  case h_15 ha => exact encode_of_decodeE (BitVec.eq_of_toNat_eq ha) h
  case h_16 =>
    simp only [imp_false] at *
    exact encode_of_decodeF (by bv_omega) h
  case h_2 ha | h_3 ha | h_11 ha | h_12 ha =>
    cases h
    exact wordADDR_of_fields (BitVec.eq_of_toNat_eq ha) rfl
  case h_4 ha | h_5 ha | h_7 ha | h_8 ha | h_13 ha =>
    cases h
    exact wordXKK_of_fields (BitVec.eq_of_toNat_eq ha) rfl
  case h_14 ha =>
    cases h
    exact wordXYN_of_fields (BitVec.eq_of_toNat_eq ha) rfl
  case h_6 ha | h_10 ha =>
    split at h
    next hn =>
      cases h
      exact wordXYN_of_fields (BitVec.eq_of_toNat_eq ha) hn
    next => cases h

end Families

/-- Settles O2: it is `encode_of_decodeWord`. -/
theorem encodeOfDecode : Obligations.EncodeOfDecode :=
  fun _ _ => encode_of_decodeWord

/-! ### The words that are rejected (R112) -/

/-! The `simp only [imp_false] at *` below puts what a match's last branch knows, that no earlier one matched, in the form
that `bv_omega` reads. -/

section Rejection
variable {w : Word} {e : Reject}

theorem ok_eq_error_iff_of_not {i : Instr} {p : Prop} (hp : ¬p) :
    (.ok i : Except Reject Instr) = .error e ↔ e = .unknownOpcode w ∧ p := by
  simp [hp]

theorem unknownOpcode_eq_error_iff_of {p : Prop} (hp : p) :
    (.error (.unknownOpcode w) : Except Reject Instr) = .error e ↔ e = .unknownOpcode w ∧ p := by
  simp [hp, eq_comm]

theorem decode0_eq_error_iff (ha : fieldA w = 0x0) :
    decode0 w = .error e ↔ e = .unknownOpcode w ∧
      ¬(w = 0x00E0 ∨ w = 0x00EE ∨ (0x00C0 ≤ w.toNat ∧ w.toNat ≤ 0x00CF) ∨
        (0x00FB ≤ w.toNat ∧ w.toNat ≤ 0x00FF)) := by
  have hw : (fieldNNN w).toNat = w.toNat := by
    have h0 := congrArg BitVec.toNat ha
    rw [toNat_fieldA] at h0
    rw [toNat_fieldNNN]
    bv_omega
  have hx := toNat_fieldX w
  have hy := toNat_fieldY w
  unfold decode0
  split
  case h_8 =>
    simp only [imp_false] at *
    split
    next hxy =>
      rw [hxy.1] at hx
      rw [hxy.2] at hy
      exact ok_eq_error_iff_of_not (by bv_omega)
    next hxy => exact unknownOpcode_eq_error_iff_of (by bv_omega)
  all_goals exact ok_eq_error_iff_of_not (by bv_omega)

theorem decode8_eq_error_iff :
    decode8 w = .error e ↔ e = .unknownOpcode w ∧
      fieldN w ∈ ([0x8, 0x9, 0xA, 0xB, 0xC, 0xD, 0xF] : List Nibble) := by
  simp only [List.mem_cons, List.not_mem_nil, or_false]
  unfold decode8
  split
  case h_10 =>
    simp only [imp_false] at *
    exact unknownOpcode_eq_error_iff_of (by bv_omega)
  all_goals exact ok_eq_error_iff_of_not (by bv_omega)

theorem decodeE_eq_error_iff :
    decodeE w = .error e ↔ e = .unknownOpcode w ∧ fieldKK w ∉ ([0x9E, 0xA1] : List Byte) := by
  simp only [List.mem_cons, List.not_mem_nil, or_false]
  unfold decodeE
  split
  case h_3 =>
    simp only [imp_false] at *
    exact unknownOpcode_eq_error_iff_of (by bv_omega)
  all_goals exact ok_eq_error_iff_of_not (by bv_omega)

theorem decodeF_eq_error_iff :
    decodeF w = .error e ↔ e = .unknownOpcode w ∧
      fieldKK w ∉ ([0x07, 0x0A, 0x15, 0x18, 0x1E, 0x29, 0x30, 0x33, 0x55, 0x65, 0x75, 0x85] : List Byte) := by
  simp only [List.mem_cons, List.not_mem_nil, or_false]
  unfold decodeF
  split
  case h_13 =>
    simp only [imp_false] at *
    exact unknownOpcode_eq_error_iff_of (by bv_omega)
  all_goals exact ok_eq_error_iff_of_not (by bv_omega)

/-- A word is rejected exactly when R112 lists it, and then by name; the cases are the families in rising order. -/
theorem decodeWord_eq_error_iff : decodeWord w = .error e ↔ e = .unknownOpcode w ∧ IsUnknown w := by
  unfold decodeWord
  split
  case h_1 ha =>
    have ha : fieldA w = 0x0 := BitVec.eq_of_toNat_eq ha
    rw [decode0_eq_error_iff ha]
    simp [IsUnknown, ha]
  case h_9 ha =>
    have ha : fieldA w = 0x8 := BitVec.eq_of_toNat_eq ha
    rw [decode8_eq_error_iff]
    simp [IsUnknown, ha]
  case h_15 ha =>
    have ha : fieldA w = 0xE := BitVec.eq_of_toNat_eq ha
    rw [decodeE_eq_error_iff]
    simp [IsUnknown, ha]
  case h_16 =>
    have ha : fieldA w = 0xF := by
      simp only [imp_false] at *
      bv_omega
    rw [decodeF_eq_error_iff]
    simp [IsUnknown, ha]
  case h_6 ha | h_10 ha =>
    split
    next hn => exact ok_eq_error_iff_of_not (by simp [IsUnknown, ← BitVec.toNat_inj, ha, hn])
    next hn =>
      exact unknownOpcode_eq_error_iff_of (by simpa [IsUnknown, ← BitVec.toNat_inj, ha] using hn)
  all_goals
    next ha => exact ok_eq_error_iff_of_not (by simp [IsUnknown, ← BitVec.toNat_inj, ha])

end Rejection

end Sys2Proof

namespace Sys2Proof.Machine

/-! ### What a tick does with the word it fetches (R101, R112, R340) -/

/-- A core that is not stopped has recorded no fatal condition (R341). -/
theorem State.fault_eq_none_of_not_stopped {s : State} (h : s.stopped = false) : s.fault = none :=
  Option.isNone_iff_eq_none.mp (by simpa using (Bool.or_eq_false_iff.mp h).1)

/-- A tick of a running core ends with what executing the fetched word, `PC` past it, answers. -/
theorem step_of_fetch {s : State} {op : Word} (hs : s.stopped = false) (ha : s.awaiting = false)
    (hf : s.fetch = .ok op) : step s = finishTick (execWord op s.advancePc) := by
  rw [step_of_running hs ha, State.fetchExecute, hf]

/-- Settles O3: the rejected words are those of `decodeWord_eq_error_iff`, and the tick executes such a word as the report
alone. -/
theorem unknownWordIsReportedNoOp : Obligations.UnknownWordIsReportedNoOp := by
  refine ⟨fun w => ⟨fun hw => decodeWord_eq_error_iff.mpr ⟨rfl, hw⟩, fun hw => ?_⟩, fun s w hs ha hf hw => ?_⟩
  · cases hd : decodeWord w with
    | ok i => exact ⟨i, rfl⟩
    | error e => exact absurd (decodeWord_eq_error_iff.mp hd).2 hw
  · have hreport : execWord w s.advancePc = .next (s.advancePc.report (.unknownOpcode w)) := by
      rw [execWord, decodeWord_eq_error_iff.mpr ⟨rfl, hw⟩]
      rfl
    have hfault : (s.advancePc.report (.unknownOpcode w)).fault = none := State.fault_eq_none_of_not_stopped hs
    rw [step_of_fetch hs ha hf, hreport, finishTick, State.endTick_eq, if_pos hfault]
    rfl

/-- Settles O6: the two bytes at `PC` are the word fetched, and the timer step is the end of the tick. -/
theorem stepRunsDecodedInstruction : Obligations.StepRunsDecodedInstruction := by
  intro s t i hs ha hpc hdecode hexec
  have hword : execWord (wordOfBytes (s.readByte s.pc.toNat) (s.readByte (s.pc.toNat + 1))) s.advancePc = .next t := by
    rw [execWord, (decode_cons_cons_eq_ok_iff.mp hdecode).1]
    exact hexec
  rw [step_of_fetch hs ha (s.fetch_of_fits hpc), hword, finishTick, State.endTick_eq]

/-- Settles O8: the fetch answers the fatal condition, and raising it writes nothing else. -/
theorem fetchOutOfRangeFaults : Obligations.FetchOutOfRangeFaults := by
  intro s hs ha hpc
  refine ⟨s.raise _, ?_, rfl, rfl, rfl, rfl⟩
  rw [step_of_running hs ha, State.fetchExecute, s.fetch_of_runs_off hpc]
  rfl

/-! ### Every instruction and every tick answers a next state (R114, R361) -/

/-- Where the meaning of an instruction branches, a raise or a report on one side is a next state too. -/
theorem exec_eq_next (i : Instr) (s : State) : ∃ t, exec i s = .next t := by
  cases i with
  | ret | call | drw | skp | sknp | ldHF | ldB | storeRegs | loadRegs =>
    simp only [exec, execRet, execCall, execDrw, execSkp, execSknp, execLdHF, execLdB, execStoreRegs, execLoadRegs]
    split <;> exact ⟨_, rfl⟩
  | _ => exact ⟨_, rfl⟩

theorem execWord_eq_next (op : Word) (s : State) : ∃ t, execWord op s = .next t := by
  unfold execWord
  split
  next i _ => exact exec_eq_next i s
  next e _ => cases e <;> exact ⟨_, rfl⟩

theorem State.fetchExecute_eq_next (s : State) : ∃ t, s.fetchExecute = .next t := by
  unfold State.fetchExecute
  split
  next => exact ⟨_, rfl⟩
  next op _ =>
    obtain ⟨t, ht⟩ := execWord_eq_next op s.advancePc
    exact ⟨t.endTick, by rw [ht, finishTick]⟩

theorem step_eq_next (s : State) : ∃ t, step s = .next t := by
  unfold step tick
  split
  next => exact ⟨s, rfl⟩
  next =>
    split
    next => exact ⟨s, rfl⟩
    next u _ => exact u.fetchExecute_eq_next

/-- Settles O11: it is `exec_eq_next` and `step_eq_next`. -/
theorem everyStepHasANextState : Obligations.EveryStepHasANextState :=
  ⟨exec_eq_next, step_eq_next⟩

/-! ### The mode gate (R113) -/

/-- Each SCHIP-only instruction is an effect behind the mode gate. -/
theorem exec_of_isSchipOnly {i : Instr} (hi : isSchipOnly i = true) (s : State) :
    ∃ effect, exec i s = .next (s.schipOnly i effect) := by
  cases i with
  | scd | scr | scl | exit | low | high | saveRpl | loadRpl => exact ⟨_, rfl⟩
  | _ => cases hi

/-- Settles O57: in base mode the gate answers the report, which leaves memory alone. -/
theorem schipOnlyIsReportedInBaseMode : Obligations.SchipOnlyIsReportedInBaseMode := by
  intro i s hbase hi
  obtain ⟨effect, heffect⟩ := exec_of_isSchipOnly hi s
  refine ⟨s.report (.schipOnlyOpcode (encode i)), ?_, s.report_eq _, fun _ => rfl⟩
  rw [heffect, State.schipOnly_of_base hbase]

end Sys2Proof.Machine
end

section
/-! PROOFS. Control transfer (40_control_flow.md): what each jump, call, return and skip answers, and the obligations read
off these answers. -/

namespace Sys2Proof

/-- The word of an instruction encodes it. -/
theorem encodes_encode (i : Instr) : Encodes (encode i) i := ⟨decodeWord_encode i, rfl⟩

end Sys2Proof

namespace Sys2Proof.Machine

variable {s : State} {nnn : Addr12}

/-! ### Targets (R104, R147) -/

theorem toNat_addrOf (nnn : Addr12) : (addrOf nnn).toNat = nnn.toNat := by
  rw [addrOf, BitVec.toNat_setWidth_of_le (by decide)]

theorem State.toNat_wordV (s : State) (x : Nibble) : (s.wordV x).toNat = (s.getV x).toNat := by
  rw [State.wordV, BitVec.toNat_setWidth_of_le (by decide)]

/-- The sum of a byte and a 12-bit address does not wrap. -/
theorem State.toNat_wordV_add_addrOf (s : State) (x : Nibble) (nnn : Addr12) :
    (s.wordV x + addrOf nnn).toNat = (s.getV x).toNat + nnn.toNat := by
  have hx := (s.getV x).isLt
  have hnnn := nnn.isLt
  rw [BitVec.toNat_add, State.toNat_wordV, toNat_addrOf]
  omega

/-! ### Writing `PC` alone, and the skip (R18) -/

theorem State.onlyPc_withPc (s : State) (pc : Word) : OnlyPc s (s.withPc pc) := ⟨rfl, sameMemory_of_mem_eq rfl rfl⟩

/-- A skip writes `PC`, with its old value when it is not taken. -/
theorem State.skipIf_eq (s : State) (c : Bool) : s.skipIf c = s.withPc (if c then s.pc + 2 else s.pc) := by
  cases c <;> rfl

theorem State.onlyPc_skipIf (s : State) (c : Bool) : OnlyPc s (s.skipIf c) := by
  rw [State.skipIf_eq]
  exact s.onlyPc_withPc _

theorem State.pc_skipIf (s : State) (c : Bool) : (s.skipIf c).pc = if c then s.pc + 2 else s.pc := by
  rw [State.skipIf_eq, State.withPc_pc]

/-! ### What RET and CALL answer (R140, R142) -/

theorem exec_ret_of_empty (h : s.sp.val = 0) : exec .ret s = .next (s.raise (.stackUnderflow (s.pc - 2))) := dif_pos h

/-- RET with `k + 1` entries in use goes to the last of them, entry `k`, and leaves the entries alone. -/
theorem exec_ret_of_nonempty {k : Nat} (hk : k < 16) (h : s.sp.val = k + 1) :
    exec .ret s = .next ((s.withStack s.stack ⟨k, by omega⟩).withPc s.stack[k]) := by
  obtain rfl : k = s.sp.val - 1 := by omega
  exact dif_neg (by omega)

theorem exec_call_of_full (h : s.sp.val = 16) :
    exec (.call nnn) s = .next (s.raise (.stackOverflow (s.pc - 2))) := dif_neg (by omega)

theorem exec_call_of_room (h : s.sp.val < 16) :
    exec (.call nnn) s =
      .next ((s.withStack (s.stack.set s.sp.val s.pc h) ⟨s.sp.val + 1, by omega⟩).withPc (addrOf nnn)) := dif_pos h

/-! ### The obligations -/

/-- Settles O29: on a stack in use RET takes the entry below the old `SP`. -/
theorem retPopsOrUnderflows : Obligations.RetPopsOrUnderflows := by
  refine ⟨encodes_encode .ret, fun s => ⟨fun h => ⟨_, exec_ret_of_empty h, rfl⟩, fun h => ?_⟩⟩
  obtain ⟨k, hk⟩ := Nat.exists_eq_add_one_of_ne_zero h
  have hlt : k < 16 := by omega
  exact ⟨_, exec_ret_of_nonempty hlt hk, rfl, sameMemory_of_mem_eq rfl rfl, hk.symm,
    (Vector.getElem?_eq_getElem hlt).symm⟩

/-- Settles O30: the target keeps its value when it is extended to 16 bits. -/
theorem jumpSetsPc : Obligations.JumpSetsPc := fun nnn s =>
  ⟨encodes_encode (.jp nnn), _, rfl, s.onlyPc_withPc _, toNat_addrOf nnn⟩

/-- Settles O31: the mode is not read, and the sum does not wrap. -/
theorem indexedJumpAddsV0 : Obligations.IndexedJumpAddsV0 := fun nnn s =>
  ⟨encodes_encode (.jpV0 nnn), _, rfl, s.onlyPc_withPc _, s.toNat_wordV_add_addrOf 0 nnn⟩

/-- Settles O32: CALL with room sets the one entry at the old `SP`. -/
theorem callPushesOrOverflows : Obligations.CallPushesOrOverflows := by
  refine fun nnn s => ⟨encodes_encode (.call nnn), fun h => ⟨_, exec_call_of_full h, rfl⟩, fun h => ?_⟩
  refine ⟨_, exec_call_of_room h, rfl, sameMemory_of_mem_eq rfl rfl, rfl, toNat_addrOf nnn, ?_, fun j hj => ?_⟩
  · exact Vector.getElem?_set_self h
  · exact Vector.getElem?_set_ne h hj.symm

/-- Settles O33: CALL puts its return address in the entry at the old `SP`, which is the one RET then takes. -/
theorem retUndoesCall : Obligations.RetUndoesCall := by
  intro nnn s u w hroom hcall hstack hsp
  obtain rfl := Host.Outcome.next.inj ((exec_call_of_room hroom).symm.trans hcall)
  refine ⟨_, exec_ret_of_nonempty hroom (congrArg Fin.val hsp), ?_, rfl⟩
  simp [hstack]

/-- Settles O34: each is a skip on the outcome of its comparison. -/
theorem skipsCompareAndSkip : Obligations.SkipsCompareAndSkip := by
  refine fun x y kk s =>
    ⟨⟨encodes_encode (.seImm x kk), _, rfl, s.onlyPc_skipIf _, ?_⟩,
      ⟨encodes_encode (.sneImm x kk), _, rfl, s.onlyPc_skipIf _, ?_⟩,
      ⟨encodes_encode (.seReg x y), _, rfl, s.onlyPc_skipIf _, ?_⟩,
      ⟨encodes_encode (.sneReg x y), _, rfl, s.onlyPc_skipIf _, ?_⟩⟩
  all_goals simp [State.pc_skipIf]

end Sys2Proof.Machine
end

section
/-! PROOFS. Register loads and arithmetic (41_register_alu.md): the laws of a register write and of a result with its
flag (R171), the value of each flag, and the obligations read off them. -/

namespace Sys2Proof.Machine

variable {x : Nibble}

/-! ### Writing one register -/

theorem State.onlyV_setV (s : State) (x : Nibble) (b : Byte) : OnlyV s (s.setV x b) :=
  ⟨rfl, sameMemory_of_mem_eq rfl rfl⟩

theorem State.sameVOutside_setV (s : State) (x : Nibble) (b : Byte) : SameVOutside s (s.setV x b) [x] :=
  fun _ hr => s.getV_setV_of_ne b (List.ne_of_not_mem_cons hr)

/-! ### Writing a result and its flag (R171, D9) -/

theorem State.onlyV_setResultFlag (s : State) (x : Nibble) (b flag : Byte) : OnlyV s (s.setResultFlag x b flag) :=
  ⟨rfl, sameMemory_of_mem_eq rfl rfl⟩

theorem State.sameVOutside_setResultFlag (s : State) (x : Nibble) (b flag : Byte) :
    SameVOutside s (s.setResultFlag x b flag) [x, 0xF] := by
  intro r hr
  obtain ⟨hrx, hrF⟩ := List.ne_and_not_mem_of_not_mem_cons hr
  calc (s.setResultFlag x b flag).getV r
    _ = (s.setV x b).getV r := (s.setV x b).sameVOutside_setV 0xF flag r hrF
    _ = s.getV r := s.getV_setV_of_ne b hrx

/-- The result stands unless the flag is written over it. -/
theorem State.getV_setResultFlag (s : State) (hx : x ≠ 0xF) (b flag : Byte) : (s.setResultFlag x b flag).getV x = b :=
  ((s.setV x b).getV_setV_of_ne flag hx).trans (s.getV_setV_same x b)

/-- The flag stands whatever the result register is. -/
@[simp] theorem State.getVF_setResultFlag (s : State) (x : Nibble) (b flag : Byte) :
    (s.setResultFlag x b flag).getVF = flag :=
  (s.setV x b).getV_setV_same 0xF flag

/-! ### The value of each flag -/

theorem toNat_flagByte (c : Bool) : (flagByte c).toNat = c.toNat := by
  cases c <;> rfl

theorem carryFlag_eq (a b : Byte) : carryFlag a b = if a.toNat + b.toNat > 255 then 1 else 0 := by
  simp only [carryFlag, flagByte, decide_eq_true_eq]

theorem noBorrowFlag_eq (a b : Byte) : noBorrowFlag a b = if a.toNat > b.toNat then 1 else 0 := by
  simp only [noBorrowFlag, flagByte, decide_eq_true_eq]

/-- Bit 0 is the remainder that halving loses. -/
theorem toNat_shrFlag (src : Byte) : (shrFlag src).toNat = src.toNat % 2 := by
  rw [shrFlag, toNat_flagByte, BitVec.getLsbD, Nat.testBit_zero]
  rcases Nat.mod_two_eq_zero_or_one src.toNat with h | h <;> simp [h]

/-- Bit 7 is the top bit: doubling loses it when the byte is at least 128. -/
theorem toNat_shlFlag (src : Byte) : (shlFlag src).toNat = src.toNat / 128 := by
  rw [shlFlag, toNat_flagByte, BitVec.getLsbD, Nat.testBit_eq_decide_div_mod_eq]
  have hsrc := src.isLt
  rcases (by omega : src.toNat / 128 = 0 ∨ src.toNat / 128 = 1) with h | h <;> simp [h]

/-! ### The value of each result -/

/-- Wrapping subtraction of bytes, with the borrow put before the subtraction. -/
theorem toNat_byte_sub (a b : Byte) : (a - b).toNat = (a.toNat + 256 - b.toNat) % 256 := by
  rw [BitVec.toNat_sub]
  omega

theorem toNat_byte_shiftRight_one (a : Byte) : (a >>> 1).toNat = a.toNat / 2 := by
  rw [BitVec.toNat_ushiftRight, Nat.shiftRight_eq_div_pow, pow_one]

theorem toNat_byte_shiftLeft_one (a : Byte) : (a <<< 1).toNat = a.toNat * 2 % 256 := by
  rw [BitVec.toNat_shiftLeft, Nat.shiftLeft_eq, pow_one]

/-! ### The obligations -/

/-- Settles O35: both are one register write. -/
theorem loadAndAddImmediate : Obligations.LoadAndAddImmediate := by
  refine fun x kk s =>
    ⟨⟨encodes_encode (.ldImm x kk), _, rfl, s.onlyV_setV x _, s.sameVOutside_setV x _, s.getV_setV_same x _⟩,
      ⟨encodes_encode (.addImm x kk), _, rfl, s.onlyV_setV x _, s.sameVOutside_setV x _, ?_⟩⟩
  rw [State.getV_setV_same, BitVec.toNat_add]

/-- Settles O36: each is one register write, and the logic of words is bit by bit. -/
theorem moveAndLogicAreBitwise : Obligations.MoveAndLogicAreBitwise := by
  refine fun x y s =>
    ⟨⟨encodes_encode (.ldReg x y), _, rfl, s.onlyV_setV x _, s.sameVOutside_setV x _, s.getV_setV_same x _⟩,
      ⟨encodes_encode (.orReg x y), _, rfl, s.onlyV_setV x _, s.sameVOutside_setV x _, fun k => ?_⟩,
      ⟨encodes_encode (.andReg x y), _, rfl, s.onlyV_setV x _, s.sameVOutside_setV x _, fun k => ?_⟩,
      ⟨encodes_encode (.xorReg x y), _, rfl, s.onlyV_setV x _, s.sameVOutside_setV x _, fun k => ?_⟩⟩
  · rw [State.getV_setV_same, BitVec.getLsbD_or]
  · rw [State.getV_setV_same, BitVec.getLsbD_and]
  · rw [State.getV_setV_same, BitVec.getLsbD_xor]

/-- Settles O37: the sum wraps, and the flag, written last, is the carry. -/
theorem addRegisterSetsCarry : Obligations.AddRegisterSetsCarry := by
  refine fun x y s => ⟨encodes_encode (.addReg x y), _, rfl, s.onlyV_setResultFlag x _ _,
    s.sameVOutside_setResultFlag x _ _, fun hx => ?_, ?_⟩
  · rw [s.getV_setResultFlag hx, BitVec.toNat_add]
  · rw [State.getVF_setResultFlag, carryFlag_eq]

/-- Settles O38: the difference wraps, and the flag, written last, is the strict comparison of the old values. -/
theorem subtractsSetStrictNoBorrow : Obligations.SubtractsSetStrictNoBorrow := by
  refine fun x y s =>
    ⟨⟨encodes_encode (.sub x y), _, rfl, s.onlyV_setResultFlag x _ _, s.sameVOutside_setResultFlag x _ _,
        fun hx => ?_, ?_⟩,
      ⟨encodes_encode (.subn x y), _, rfl, s.onlyV_setResultFlag x _ _, s.sameVOutside_setResultFlag x _ _,
        fun hx => ?_, ?_⟩⟩
  · rw [s.getV_setResultFlag hx, toNat_byte_sub]
  · rw [State.getVF_setResultFlag, noBorrowFlag_eq]
  · rw [s.getV_setResultFlag hx, toNat_byte_sub]
  · rw [State.getVF_setResultFlag, noBorrowFlag_eq]

/-- Settles O39: the source is the model's shift source, and the flag, written last, is the bit it loses. -/
theorem shiftsFollowTheMode : Obligations.ShiftsFollowTheMode := by
  intro x y s src hsrc
  obtain rfl : src = s.shiftSource x y := hsrc
  refine
    ⟨⟨encodes_encode (.shr x y), _, rfl, s.onlyV_setResultFlag x _ _, s.sameVOutside_setResultFlag x _ _,
        fun hx => ?_, ?_⟩,
      ⟨encodes_encode (.shl x y), _, rfl, s.onlyV_setResultFlag x _ _, s.sameVOutside_setResultFlag x _ _,
        fun hx => ?_, ?_⟩⟩
  · rw [s.getV_setResultFlag hx, toNat_byte_shiftRight_one]
  · rw [State.getVF_setResultFlag, toNat_shrFlag]
  · rw [s.getV_setResultFlag hx, toNat_byte_shiftLeft_one]
  · rw [State.getVF_setResultFlag, toNat_shlFlag]

/-- Settles O40: using up a draw leaves the registers alone, so RND is one register write after it. -/
theorem randomByteIsMaskedDraw : Obligations.RandomByteIsMaskedDraw := by
  refine fun x kk s => ⟨encodes_encode (.rnd x kk), _, rfl, rfl, sameMemory_of_mem_eq rfl rfl,
    s.nextDraw.sameVOutside_setV x _, fun k => ?_, fun hkk => ?_⟩
  · rw [State.getV_setV_same, BitVec.getLsbD_and, State.randomByte]
  · rw [State.getV_setV_same, hkk]
    exact BitVec.and_zero

end Sys2Proof.Machine
end

section
/-! PROOFS. The index register and memory transfers (42_index_memory.md): a write of `I` alone, what a block transfer that
fits memory leaves in memory and registers, what each transfer answers, and the obligations read off these answers. -/

namespace Sys2Proof.Machine

variable {s : State} {x : Nibble} {a : Nat} {bs : List Byte}

/-! ### Writing `I` alone, or one event -/

theorem State.onlyI_withI (s : State) (i : Word) : OnlyI s (s.withI i) := ⟨rfl, sameMemory_of_mem_eq rfl rfl⟩

theorem State.onlyReport_report (s : State) (r : Report) : OnlyReport s (s.report r) r :=
  ⟨rfl, sameMemory_of_mem_eq rfl rfl⟩

/-! ### Glyph addresses (R212, R213) -/

/-- Even for the greatest byte the address of a small-font glyph does not wrap. -/
theorem toNat_smallGlyphAddr (d : Byte) : (smallGlyphAddr d).toNat = 0x050 + 5 * d.toNat := by
  have hd := d.isLt
  rw [smallGlyphAddr, smallFontBase, BitVec.toNat_ofNat, Nat.mod_eq_of_lt (by omega)]

theorem exec_ldHF_of_digit (h : (s.getV x).toNat ≤ 9) :
    exec (.ldHF x) s = .next (s.withI (largeGlyphAddr s.cfg (s.getV x))) := if_neg (Nat.not_lt.mpr h)

theorem exec_ldHF_of_above (h : 9 < (s.getV x).toNat) :
    exec (.ldHF x) s = .next (s.report (.largeFontDigitOutOfRange (encode (.ldHF x)) (s.getV x))) := if_pos h

/-! ### The post-increment of `I` (R215) -/

theorem State.sameMemory_advanceI (s : State) (x : Nibble) : SameMemory s (s.advanceI x) :=
  sameMemory_of_mem_eq (s.sameConfigKeys_advanceI x).1 (by rw [State.advanceI_eq])

theorem State.getV_advanceI (s : State) (x r : Nibble) : (s.advanceI x).getV r = s.getV r := by
  rw [State.advanceI_eq]
  rfl

/-- After a transfer that fits memory, the post-increment does not wrap. -/
theorem State.toNat_i_advanceI (h : s.iAddr + x.toNat < memSize) :
    (s.advanceI x).i.toNat = if s.cfg.schipMode = true then s.i.toNat else s.i.toNat + x.toNat + 1 := by
  rw [State.iAddr, memSize] at h
  unfold State.advanceI
  split
  · rfl
  · rw [State.withI_i, BitVec.toNat_add, BitVec.toNat_ofNat, regCount]
    omega

/-! ### How many registers `V0..Vx` are (R215) -/

/-- Registers `V0` to `Vx` are among the first `regCount x`. -/
theorem lt_regCount_iff {k : Nibble} : k.toNat < regCount x ↔ k.toNat ≤ x.toNat := Nat.lt_succ_iff

theorem regCount_ne_zero (x : Nibble) : regCount x ≠ 0 := Nat.succ_ne_zero _

theorem regCount_le (x : Nibble) : regCount x ≤ 16 := x.isLt

/-! ### A run of stores that fits memory -/

/-- A run of stores leaves every byte outside it. -/
theorem State.sameMemoryOutside_storeBytes (hs : s.MemWf) (hfits : a + bs.length ≤ memSize) :
    SameMemoryOutside s (s.storeBytes a bs) a bs.length := by
  intro b hb
  rw [s.readByte_storeBytes hs a bs hfits]
  split
  · rw [List.getElem?_eq_none (by omega), Option.getD_none]
  · rfl

/-- A run of stores puts its `j`-th byte at the `j`-th address. -/
theorem State.readByte_storeBytes_of_getElem? (hs : s.MemWf) (hfits : a + bs.length ≤ memSize) {j : Nat} {b : Byte}
    (hj : bs[j]? = some b) : (s.storeBytes a bs).readByte (a + j) = b := by
  rw [s.readByte_storeBytes hs a bs hfits, if_pos (Nat.le_add_right a j), Nat.add_sub_cancel_left, hj, Option.getD_some]

/-- A run of stores of `V0`, `V1`, ... puts `Vk` at the `k`-th address. -/
theorem State.readByte_storeBytes_regsFrom (hs : s.MemWf) {n : Nat} (hfits : a + n ≤ memSize) {k : Nibble}
    (hk : k.toNat < n) : (s.storeBytes a (s.regsFrom 0 n)).readByte (a + k.toNat) = s.getV k := by
  refine State.readByte_storeBytes_of_getElem? hs (by rwa [State.length_regsFrom]) ?_
  rw [State.getElem?_regsFrom _ _ _ _ hk, Nat.zero_add, BitVec.ofNat_toNat, BitVec.setWidth_eq]

/-! ### A run of loads -/

/-- A run of loads of `V0`, `V1`, ... puts the `k`-th byte into `Vk`. -/
theorem State.getV_setRegsFrom_peekBlock (s : State) {a n : Nat} (hn : n ≤ 16) (r : Nibble) :
    (s.setRegsFrom 0 (s.peekBlock a n)).getV r =
      if r.toNat < n then s.readByte (a + r.toNat) else s.getV r := by
  split
  next hr =>
    rw [State.getV_setRegsFrom _ _ _ (by rw [State.length_peekBlock]; omega), if_pos (Nat.zero_le _), Nat.sub_zero,
      State.getElem?_peekBlock _ _ _ _ hr, Option.getD_some]
  next hr => exact s.getV_setRegsFrom_above (by rw [State.length_peekBlock]; omega)

/-! ### What each transfer answers (R214, R216, R217) -/

theorem exec_ldB_of_fits (h : s.iAddr + 3 ≤ memSize) :
    exec (.ldB x) s = .next (s.storeBytes s.iAddr (bcdDigits (s.getV x))) := by
  rw [exec, execLdB, State.storeBlock_of_fits s (.inr h)]

theorem exec_ldB_of_runs_off (h : memSize < s.iAddr + 3) :
    ∃ t, exec (.ldB x) s = .next t ∧ t.fault = some (.memoryOutOfRange (max s.iAddr memSize)) := by
  obtain ⟨t, ht, hfault⟩ :=
    s.storeBlock_of_runs_off (bs := bcdDigits (s.getV x)) (Nat.succ_ne_zero 2) h
  exact ⟨t, by rw [exec, execLdB, ht], hfault⟩

theorem exec_storeRegs_of_fits (h : s.iAddr + regCount x ≤ memSize) :
    exec (.storeRegs x) s = .next ((s.storeBytes s.iAddr (s.regsFrom 0 (regCount x))).advanceI x) := by
  rw [exec, execStoreRegs, State.storeBlock_of_fits s (.inr (by rwa [State.length_regsFrom]))]

theorem exec_storeRegs_of_runs_off (h : memSize < s.iAddr + regCount x) :
    ∃ t, exec (.storeRegs x) s = .next t ∧ t.fault = some (.memoryOutOfRange (max s.iAddr memSize)) := by
  obtain ⟨t, ht, hfault⟩ := s.storeBlock_of_runs_off (bs := s.regsFrom 0 (regCount x))
    (by rw [State.length_regsFrom]; exact regCount_ne_zero x) (by rwa [State.length_regsFrom])
  exact ⟨t, by rw [exec, execStoreRegs, ht], hfault⟩

theorem exec_loadRegs_of_fits (h : s.iAddr + regCount x ≤ memSize) :
    exec (.loadRegs x) s = .next ((s.setRegsFrom 0 (s.peekBlock s.iAddr (regCount x))).advanceI x) := by
  rw [exec, execLoadRegs, State.loadBlock_of_fits s (.inr h)]

theorem exec_loadRegs_of_runs_off (h : memSize < s.iAddr + regCount x) :
    ∃ t, exec (.loadRegs x) s = .next t ∧ t.fault = some (.memoryOutOfRange (max s.iAddr memSize)) := by
  obtain ⟨t, ht, hfault⟩ := s.loadBlock_of_runs_off (regCount_ne_zero x) h
  exact ⟨t, by rw [exec, execLoadRegs, ht], hfault⟩

/-! ### The frame of a transfer with its post-increment -/

theorem State.advanceI_storeBytes_eq (s : State) (x : Nibble) (a : Nat) (bs : List Byte) :
    (s.storeBytes a bs).advanceI x =
      { s with mem := ((s.storeBytes a bs).advanceI x).mem, i := ((s.storeBytes a bs).advanceI x).i } := by
  rw [State.advanceI_eq, State.storeBytes_eq]

theorem State.advanceI_setRegsFrom_eq (s : State) (x : Nibble) (k : Nat) (bs : List Byte) :
    (s.setRegsFrom k bs).advanceI x =
      { s with v := ((s.setRegsFrom k bs).advanceI x).v, i := ((s.setRegsFrom k bs).advanceI x).i } := by
  rw [State.advanceI_eq, State.setRegsFrom_eq]

/-! ### The obligations -/

/-- Settles O41: both are one write of `I`, and the sum wraps as words do. -/
theorem indexLoads : Obligations.IndexLoads := by
  refine fun nnn x s =>
    ⟨⟨encodes_encode (.ldI nnn), _, rfl, s.onlyI_withI _, toNat_addrOf nnn⟩,
      ⟨encodes_encode (.addI x), _, rfl, s.onlyI_withI _, ?_⟩⟩
  rw [State.withI_i, BitVec.toNat_add, State.toNat_wordV]

/-- Settles O42: the small-font address does not wrap, and LD HF branches on the digit. -/
theorem glyphAddressesOrReport : Obligations.GlyphAddressesOrReport := fun x s =>
  ⟨⟨encodes_encode (.ldF x), _, rfl, s.onlyI_withI _, toNat_smallGlyphAddr _⟩, encodes_encode (.ldHF x),
    fun h => ⟨_, exec_ldHF_of_digit h, s.onlyI_withI _, BitVec.toNat_ofNat _ _⟩,
    fun h => ⟨_, exec_ldHF_of_above h, s.onlyReport_report _⟩⟩

/-- Settles O43: within memory the digits are a run of three stores, and each digit fits a byte. -/
theorem bcdDigitsStored : Obligations.BcdDigitsStored := by
  refine fun x s hwf => ⟨encodes_encode (.ldB x), fun h => ?_, fun h => exec_ldB_of_runs_off (Nat.lt_succ_of_le h)⟩
  have hs : s.MemWf := (State.wf_iff.mp hwf).1
  have hv := (s.getV x).isLt
  have hdigit {j d : Nat} (hj : (bcdDigits (s.getV x))[j]? = some (BitVec.ofNat 8 d)) (hd : d < 256) :
      ((s.storeBytes s.iAddr (bcdDigits (s.getV x))).readByte (s.iAddr + j)).toNat = d := by
    rw [State.readByte_storeBytes_of_getElem? hs h hj, BitVec.toNat_ofNat, Nat.mod_eq_of_lt hd]
  exact ⟨_, exec_ldB_of_fits h, s.storeBytes_eq _ _, hdigit (j := 0) rfl (by omega), hdigit (j := 1) rfl (by omega),
    hdigit (j := 2) rfl (by omega), State.sameMemoryOutside_storeBytes hs h⟩

/-- Settles O44: within memory the registers are a run of stores, and the post-increment leaves memory alone. -/
theorem storeRegistersToMemory : Obligations.StoreRegistersToMemory := by
  refine fun x s hwf => ⟨encodes_encode (.storeRegs x), fun h => ?_, fun h =>
    exec_storeRegs_of_runs_off (Nat.lt_succ_of_le h)⟩
  have hs : s.MemWf := (State.wf_iff.mp hwf).1
  have hmem := (s.storeBytes s.iAddr (s.regsFrom 0 (regCount x))).sameMemory_advanceI x
  refine ⟨_, exec_storeRegs_of_fits h, s.advanceI_storeBytes_eq x _ _, fun k hk => ?_, fun b hb => ?_, ?_⟩
  · rw [hmem]
    exact State.readByte_storeBytes_regsFrom hs h (lt_regCount_iff.mpr hk)
  · rw [hmem]
    exact State.sameMemoryOutside_storeBytes hs (by rwa [State.length_regsFrom]) b (by rwa [State.length_regsFrom])
  · rw [State.storeBytes_eq]
    exact State.toNat_i_advanceI h

/-- Settles O45: within memory the bytes are a run of register writes, and the post-increment leaves registers alone. -/
theorem loadRegistersFromMemory : Obligations.LoadRegistersFromMemory := by
  refine fun x s => ⟨encodes_encode (.loadRegs x), fun h => ?_, fun h =>
    exec_loadRegs_of_runs_off (Nat.lt_succ_of_le h)⟩
  have hframe := s.advanceI_setRegsFrom_eq x 0 (s.peekBlock s.iAddr (regCount x))
  refine ⟨_, exec_loadRegs_of_fits h, hframe, sameMemory_of_mem_eq (by rw [hframe]) (by rw [hframe]), fun k => ?_, ?_⟩
  · simp only [State.getV_advanceI, s.getV_setRegsFrom_peekBlock (regCount_le x), lt_regCount_iff]
  · rw [State.setRegsFrom_eq]
    exact State.toNat_i_advanceI h

end Sys2Proof.Machine
end

section
/-! PROOFS. The display (43_display.md): what a screen write leaves alone, what DRW answers in the terms of the sprite's
bits, columns and rows, and the obligations read off these answers. -/

namespace Sys2Proof.Machine

variable {s : State} {x y n : Nibble}

/-! ### Writing the screen alone -/

theorem State.onlyScreen_withScreen (s : State) (hires : Bool) (fb : Screen) (changed : Bool) :
    OnlyScreen s (s.withScreen hires fb changed) := ⟨rfl, sameMemory_of_mem_eq rfl rfl⟩

theorem State.onlyScreen_redraw (s : State) (fb : Screen) : OnlyScreen s (s.redraw fb) :=
  s.onlyScreen_withScreen _ _ _

theorem State.onlyScreen_setResolution (s : State) (hires : Bool) : OnlyScreen s (s.setResolution hires) :=
  s.onlyScreen_withScreen _ _ _

/-! ### What the SCHIP-only display instructions answer in SCHIP mode (R113) -/

section Schip
variable (h : s.cfg.schipMode = true)
include h

theorem exec_scd_of_schip : exec (.scd n) s = .next (s.redraw (s.fb.scrollDown s.width s.height n.toNat)) :=
  congrArg _ (State.schipOnly_of_schip h _ _)

theorem exec_scr_of_schip : exec .scr s = .next (s.redraw (s.fb.scrollRight s.width)) :=
  congrArg _ (State.schipOnly_of_schip h _ _)

theorem exec_scl_of_schip : exec .scl s = .next (s.redraw s.fb.scrollLeft) :=
  congrArg _ (State.schipOnly_of_schip h _ _)

theorem exec_low_of_schip : exec .low s = .next (s.setResolution false) :=
  congrArg _ (State.schipOnly_of_schip h _ _)

theorem exec_high_of_schip : exec .high s = .next (s.setResolution true) :=
  congrArg _ (State.schipOnly_of_schip h _ _)

end Schip

/-! ### The bytes of a sprite -/

theorem State.mem_peekBlock {a k : Nat} {b : Byte} : b ∈ s.peekBlock a k ↔ ∃ r < k, s.readByte (a + r) = b := by
  rw [List.mem_iff_getElem?]
  refine exists_congr fun r => ?_
  by_cases hr : r < k
  · rw [s.getElem?_peekBlock a k r hr, Option.some.injEq, and_iff_right hr]
  · simp [hr]

/-- Bit `7 - c` of the `r`-th byte read at `I` is the sprite bit of row `r`, column `c`. -/
theorem State.getLsbD_peekBlock {k r : Nat} (hr : r < k) (c : Nat) :
    (((s.peekBlock s.iAddr k)[r]?).getD 0).getLsbD (7 - c) = spriteBit s r c := by
  rw [s.getElem?_peekBlock _ _ _ hr, Option.getD_some, spriteBit]

/-! ### The resolutions -/

theorem eight_le_widthOf (hires : Bool) : 8 ≤ widthOf hires := by
  cases hires <;> decide

theorem thirtyTwo_le_heightOf (hires : Bool) : 32 ≤ heightOf hires := by
  cases hires <;> decide

/-- A sprite has at most 15 rows, so no two of them fall on one screen row. -/
theorem State.length_peekBlock_le_height (s : State) (a : Nat) (n : Nibble) :
    (s.peekBlock a n.toNat).length ≤ s.height := by
  rw [State.length_peekBlock]
  exact Nat.le_trans (Nat.le_of_lt n.isLt) (Nat.le_trans (by decide) (thirtyTwo_le_heightOf s.hires))

theorem spriteCol_lt_width (s : State) (x : Nibble) (c : Nat) : spriteCol s x c < s.width :=
  Nat.mod_lt _ (Nat.lt_of_lt_of_le (by decide) (eight_le_widthOf s.hires))

theorem spriteRow_lt_height (s : State) (y : Nibble) (r : Nat) : spriteRow s y r < s.height :=
  Nat.mod_lt _ (Nat.lt_of_lt_of_le (by decide) (thirtyTwo_le_heightOf s.hires))

/-! ### What a draw covers, and where it collides -/

theorem spriteCovers_iff {px py : Nat} :
    spriteCovers s x y n px py = true ↔
      ∃ r < n.toNat, ∃ c < 8, spriteBit s r c = true ∧ spriteCol s x c = px ∧ spriteRow s y r = py := by
  simp only [spriteCovers, List.any_eq_true, List.mem_range, Bool.and_eq_true, decide_eq_true_eq]

/-- Some row collides exactly when the sprite covers a pixel that is 1. -/
theorem collidingRows_pos_iff :
    0 < collidingRows s x y n ↔
      ∃ px py, px < s.width ∧ py < s.height ∧ spriteCovers s x y n px py = true ∧ s.pixel px py = true := by
  simp only [collidingRows, List.length_pos_iff_exists_mem, List.mem_filter, List.mem_range, rowCollides,
    List.any_eq_true, Bool.and_eq_true, spriteCovers_iff]
  constructor
  · rintro ⟨r, hr, c, hc, hbit, hpixel⟩
    exact ⟨_, _, spriteCol_lt_width s x c, spriteRow_lt_height s y r, ⟨r, hr, c, hc, hbit, rfl, rfl⟩, hpixel⟩
  · rintro ⟨_, _, -, -, ⟨r, hr, c, hc, hbit, rfl, rfl⟩, hpixel⟩
    exact ⟨r, hr, c, hc, hbit, hpixel⟩

/-- At most the sprite's 15 rows collide, so the count fits a byte. -/
theorem collidingRows_lt (s : State) (x y n : Nibble) : collidingRows s x y n < 16 :=
  calc collidingRows s x y n
    _ ≤ (List.range n.toNat).length := List.length_filter_le _ _
    _ = n.toNat := List.length_range
    _ < 16 := n.isLt

/-- The collision value (R252, D14). -/
theorem collisionFlag_eq (c : Config) (k : Nat) :
    collisionFlag c k = if c.schipMode = true then BitVec.ofNat 8 k else if 0 < k then 1 else 0 := by
  simp only [collisionFlag, flagByte, decide_eq_true_eq]

theorem collisionFlag_ne_zero_iff {c : Config} {k : Nat} (hk : k < 256) : collisionFlag c k ≠ 0 ↔ 0 < k := by
  cases hmode : c.schipMode with
  | true =>
    rw [collisionFlag_eq, if_pos hmode, Nat.pos_iff_ne_zero, ne_eq, ← BitVec.toNat_inj, BitVec.toNat_ofNat,
      Nat.mod_eq_of_lt hk]
    rfl
  | false =>
    rw [collisionFlag_eq, if_neg (by simp [hmode])]
    by_cases h : 0 < k <;> simp [h]

/-! ### What DRW answers (R252) -/

/-- The state a draw answers when its sprite lies within memory. -/
def State.drawn (s : State) (x y n : Nibble) : State := s.drawSprite x y (s.peekBlock s.iAddr n.toNat)

theorem exec_drw_of_fits (h : n = 0 ∨ s.iAddr + n.toNat ≤ memSize) : exec (.drw x y n) s = .next (s.drawn x y n) := by
  have hblock : s.readBlock s.iAddr n.toNat = .ok (s.peekBlock s.iAddr n.toNat) := by
    rw [State.readBlock_eq, firstOutOfRange_none (h.imp_left (congrArg BitVec.toNat))]
  change execDrw x y n s = _
  rw [execDrw, hblock, State.drawn]

theorem exec_drw_of_runs_off (h0 : n ≠ 0) (h : memSize < s.iAddr + n.toNat) :
    exec (.drw x y n) s = .next (s.raise (.memoryOutOfRange (max s.iAddr memSize))) := by
  have hblock : s.readBlock s.iAddr n.toNat = .error (.memoryOutOfRange (max s.iAddr memSize)) := by
    rw [State.readBlock_eq, firstOutOfRange_some (fun hn => h0 (BitVec.eq_of_toNat_eq hn)) h]
  change execDrw x y n s = _
  rw [execDrw, hblock]

theorem State.drawn_eq (s : State) (x y n : Nibble) :
    s.drawn x y n = { s with v := (s.drawn x y n).v, fb := (s.drawn x y n).fb, changed := (s.drawn x y n).changed } := rfl

theorem State.sameMemory_drawn (s : State) (x y n : Nibble) : SameMemory s (s.drawn x y n) :=
  sameMemory_of_mem_eq rfl rfl

theorem State.sameVOutside_drawn (s : State) (x y n : Nibble) : SameVOutside s (s.drawn x y n) [0xF] := fun _ hr =>
  State.getV_setV_of_ne _ _ (List.ne_of_not_mem_cons hr)

theorem State.pixel_drawn (hs : s.ScreenWf) (px py : Nat) :
    (s.drawn x y n).pixel px py = (s.pixel px py ^^ spriteCovers s x y n px py) := by
  refine (Screen.pixel_blit _ _ _ _ 0 _ _ hs (eight_le_widthOf _) (s.length_peekBlock_le_height _ n) px py).trans
    (congrArg _ ?_)
  rw [State.length_peekBlock, Bool.eq_iff_iff, spriteCovers_iff]
  simp only [List.any_eq_true, List.mem_range, Bool.and_eq_true, decide_eq_true_eq]
  refine exists_congr fun r => and_congr_right fun hr => ?_
  simp only [State.getLsbD_peekBlock hr, Nat.zero_add]
  rfl

theorem State.getVF_drawn (hs : s.ScreenWf) : (s.drawn x y n).getVF = collisionFlag s.cfg (collidingRows s x y n) := by
  refine (State.getV_setV_same _ _ _).trans (congrArg _ ?_)
  refine (Screen.count_blit _ _ _ _ 0 _ _ hs (eight_le_widthOf _) (s.length_peekBlock_le_height _ n)).trans ?_
  rw [State.length_peekBlock, collidingRows]
  refine congrArg _ (List.filter_congr fun r hr => ?_)
  simp only [State.getLsbD_peekBlock (List.mem_range.mp hr), Nat.zero_add]
  rfl

theorem State.changed_drawn :
    (s.drawn x y n).changed = true ↔ s.changed = true ∨ ∃ r, r < n.toNat ∧ s.readByte (s.iAddr + r) ≠ 0 := by
  change (s.changed || (s.peekBlock s.iAddr n.toNat).any fun b => decide (b ≠ 0)) = true ↔ _
  simp only [Bool.or_eq_true, List.any_eq_true, State.mem_peekBlock, decide_eq_true_eq]
  refine or_congr_right ⟨?_, fun ⟨r, hr, h⟩ => ⟨_, ⟨r, hr, rfl⟩, h⟩⟩
  rintro ⟨_, ⟨r, hr, rfl⟩, h⟩
  exact ⟨r, hr, h⟩

/-- A second draw, placed by registers the first did not write, covers the same pixels. -/
theorem spriteCovers_drawn (hx : x ≠ 0xF) (hy : y ≠ 0xF) (px py : Nat) :
    spriteCovers (s.drawn x y n) x y n px py = spriteCovers s x y n px py := by
  have hbit (r c : Nat) : spriteBit (s.drawn x y n) r c = spriteBit s r c :=
    congrArg (BitVec.getLsbD · _) (s.sameMemory_drawn x y n _)
  have hcol (c : Nat) : spriteCol (s.drawn x y n) x c = spriteCol s x c := by
    rw [spriteCol, s.sameVOutside_drawn x y n x (by simpa using hx)]
    rfl
  have hrow (r : Nat) : spriteRow (s.drawn x y n) y r = spriteRow s y r := by
    rw [spriteRow, s.sameVOutside_drawn x y n y (by simpa using hy)]
    rfl
  simp only [spriteCovers, hbit, hcol, hrow]

/-! ### The obligations -/

/-- Settles O47: within memory the answer is `State.drawn`, and a sprite that runs off memory is only a raise. -/
theorem drawXorsSprite : Obligations.DrawXorsSprite := by
  intro x y n s hwf
  obtain ⟨-, hs⟩ := State.wf_iff.mp hwf
  refine ⟨encodes_encode (.drw x y n), fun hfits => ?_, fun h0 h => ⟨_, exec_drw_of_runs_off h0 h, rfl, rfl, rfl⟩⟩
  exact ⟨_, exec_drw_of_fits hfits, s.drawn_eq x y n, s.sameMemory_drawn x y n, s.sameVOutside_drawn x y n,
    fun px py _ _ => State.pixel_drawn hs px py, (State.getVF_drawn hs).trans (collisionFlag_eq _ _),
    State.changed_drawn⟩

/-- Settles O48: the two XORs with the same sprite cancel, and the second draw collides where the first covered a pixel
that it left 1. -/
theorem drawTwiceRestores : Obligations.DrawTwiceRestores := by
  intro x y n s t hwf hx hy hfits hexec
  obtain rfl : s.drawn x y n = t := Host.Outcome.next.inj ((exec_drw_of_fits hfits).symm.trans hexec)
  have hs := (State.wf_iff.mp hwf).2
  have ht := (State.wf_iff.mp (wf_exec hwf hexec)).2
  refine ⟨_, exec_drw_of_fits hfits, fun px py _ _ => ?_, ?_⟩
  · rw [State.pixel_drawn ht, spriteCovers_drawn hx hy, State.pixel_drawn hs, Bool.xor_assoc, Bool.xor_self,
      Bool.xor_false]
  · have hlt : collidingRows (s.drawn x y n) x y n < 256 := Nat.lt_trans (collidingRows_lt _ x y n) (by decide)
    rw [State.getVF_drawn ht, collisionFlag_ne_zero_iff hlt, collidingRows_pos_iff]
    refine exists_congr fun px => exists_congr fun py => and_congr_right fun _ => and_congr_right fun _ => ?_
    rw [spriteCovers_drawn hx hy, State.pixel_drawn hs]
    cases s.pixel px py <;> simp

/-- Settles O49: in SCHIP mode each scroll is a redraw with the scrolled grid. -/
theorem scrollsMovePixels : Obligations.ScrollsMovePixels := by
  intro n s hwf hschip
  obtain ⟨-, hs⟩ := State.wf_iff.mp hwf
  refine ⟨⟨encodes_encode (.scd n), _, exec_scd_of_schip hschip, s.onlyScreen_redraw _, rfl, rfl, fun x y hx hy => ?_⟩,
    ⟨encodes_encode .scr, _, exec_scr_of_schip hschip, s.onlyScreen_redraw _, rfl, rfl, fun x y hx hy => ?_⟩,
    ⟨encodes_encode .scl, _, exec_scl_of_schip hschip, s.onlyScreen_redraw _, rfl, rfl, fun x y hx hy => ?_⟩⟩
  · exact Screen.pixel_scrollDown hx hy
  · exact Screen.pixel_scrollRight hs hx hy
  · exact Screen.pixel_scrollLeft hs hx hy

/-- Settles O46: CLS is a redraw with the blank grid. -/
theorem clearScreen : Obligations.ClearScreen :=
  ⟨encodes_encode .cls, fun s => ⟨_, rfl, s.onlyScreen_redraw _, rfl, Screen.pixel_blank _ _, rfl⟩⟩

/-- Settles O50: in SCHIP mode each select puts the blank grid of its resolution. -/
theorem resolutionSelectClears : Obligations.ResolutionSelectClears := fun s hschip =>
  ⟨⟨encodes_encode .low, _, exec_low_of_schip hschip, s.onlyScreen_setResolution false, rfl, rfl,
      Screen.wf_blank 64 32, Screen.pixel_blank 64 32⟩,
    ⟨encodes_encode .high, _, exec_high_of_schip hschip, s.onlyScreen_setResolution true, rfl, rfl,
      Screen.wf_blank 128 64, Screen.pixel_blank 128 64⟩⟩

end Sys2Proof.Machine
end

section
/-! PROOFS. Timers and input (44_timers_input.md): what the key latch answers, what SKP and SKNP make of it, a key wait
that finds no key, and the obligations read off these answers. -/

namespace Sys2Proof.Machine

variable {s : State} {x : Nibble}

/-! ### The key latch (R40, D20) -/

theorem State.keyPressed_of_lt {v : Byte} {k : Fin 16} (h : v.toNat = k.val) : s.keyPressed v = .ok s.keys[k] := by
  rw [State.keyPressed, h, Vector.getElem?_eq_getElem k.isLt]
  rfl

theorem State.keyPressed_of_ge {v : Byte} (h : 16 ≤ v.toNat) : s.keyPressed v = .error (.keyIndexOutOfRange v) := by
  rw [State.keyPressed, Vector.getElem?_eq_none h]

/-! ### What SKP and SKNP answer (R290, R291) -/

section Pressed
variable {k : Fin 16} (h : (s.getV x).toNat = k.val)
include h

theorem exec_skp_of_lt : exec (.skp x) s = .next (s.skipIf s.keys[k]) := by
  change execSkp x s = _
  rw [execSkp, State.keyPressed_of_lt h]

theorem exec_sknp_of_lt : exec (.sknp x) s = .next (s.skipIf (!s.keys[k])) := by
  change execSknp x s = _
  rw [execSknp, State.keyPressed_of_lt h]

end Pressed

section OutOfRange
variable (h : 16 ≤ (s.getV x).toNat)
include h

theorem exec_skp_of_ge : exec (.skp x) s = .next (s.raise (.keyIndexOutOfRange (s.getV x))) := by
  change execSkp x s = _
  rw [execSkp, State.keyPressed_of_ge h]

theorem exec_sknp_of_ge : exec (.sknp x) s = .next (s.raise (.keyIndexOutOfRange (s.getV x))) := by
  change execSknp x s = _
  rw [execSknp, State.keyPressed_of_ge h]

end OutOfRange

/-! ### A key wait that finds no key (R342, D24) -/

theorem State.firstKey_eq_none (h : ∀ k : Fin 16, s.keys[k] = false) : s.firstKey = none := by
  refine s.firstKeyFrom_none 0 16 fun j _ hj => ?_
  have hj16 : j < 16 := by omega
  rw [Vector.getElem?_eq_getElem hj16]
  exact h ⟨j, hj16⟩

/-- A tick whose key scan finds no key while the core waits ends there. -/
theorem step_of_waiting (ha : s.awaiting = true) (hs : s.stopped = false) (hk : s.firstKey = none) :
    step s = .next s := by
  simp [step, tick, hs, State.scanKeys, ha, hk]

/-! ### The obligations -/

/-- Settles O51: below 16 each is a skip on the latch's answer, and from 16 on each is only a raise. -/
theorem keySkipsReadTheLatch : Obligations.KeySkipsReadTheLatch := by
  refine fun x s => ⟨encodes_encode (.skp x), encodes_encode (.sknp x), fun k hk => ⟨?_, ?_⟩, fun h => ⟨?_, ?_⟩⟩
  · exact ⟨_, exec_skp_of_lt hk, s.onlyPc_skipIf _, s.pc_skipIf _⟩
  · refine ⟨_, exec_sknp_of_lt hk, s.onlyPc_skipIf _, ?_⟩
    rw [State.pc_skipIf]
    cases s.keys[k] <;> rfl
  · exact ⟨_, exec_skp_of_ge h, rfl⟩
  · exact ⟨_, exec_sknp_of_ge h, rfl⟩

/-- Settles O52: reading `DT` is one register write, and each timer set writes its timer alone. -/
theorem timerMoves : Obligations.TimerMoves := fun x s =>
  ⟨⟨encodes_encode (.ldVxDT x), _, rfl, s.onlyV_setV x _, s.sameVOutside_setV x _, s.getV_setV_same x _⟩,
    ⟨encodes_encode (.ldDTVx x), rfl⟩, ⟨encodes_encode (.ldSTVx x), rfl⟩⟩

/-- Settles O53: LD Vx,K writes the wait alone, and the scan of a latch with no key pressed finds none. -/
theorem keyWaitEntered : Obligations.KeyWaitEntered := fun x _ _ =>
  ⟨encodes_encode (.ldVxK x), rfl, fun ha hs hk => step_of_waiting ha hs (State.firstKey_eq_none hk)⟩

end Sys2Proof.Machine
end

section
/-! PROOFS. SCHIP exit and flag registers (45_schip_system.md): what EXIT and the two moves between the registers and the
RPL bytes answer in SCHIP mode, and the obligations read off these answers. -/

namespace Sys2Proof.Machine

variable {s : State} {x : Nibble}

/-! ### Quitting (R341) -/

/-- A core that has run EXIT is stopped. -/
theorem State.stopped_of_quit (h : s.quit = true) : s.stopped = true := by
  rw [State.stopped, h, Bool.or_true]

/-! ### What these instructions answer in SCHIP mode (R320, R321, R322) -/

section Schip
variable (h : s.cfg.schipMode = true)
include h

theorem exec_exit_of_schip : exec .exit s = .next (s.withQuit true) := congrArg _ (State.schipOnly_of_schip h _ _)

theorem exec_saveRpl_of_le (hx : x.toNat ≤ 7) : exec (.saveRpl x) s = .next (s.saveRplFrom 0 (regCount x)) := by
  rw [exec, execSaveRpl, State.schipOnly_of_schip h, if_neg (Nat.not_lt.mpr hx)]

theorem exec_saveRpl_of_gt (hx : 7 < x.toNat) :
    exec (.saveRpl x) s = .next (s.report (.rplIndexOutOfRange (encode (.saveRpl x)) x)) := by
  rw [exec, execSaveRpl, State.schipOnly_of_schip h, if_pos hx]

theorem exec_loadRpl_of_le (hx : x.toNat ≤ 7) :
    exec (.loadRpl x) s = .next (s.setRegsFrom 0 (s.rplFrom 0 (regCount x))) := by
  rw [exec, execLoadRpl, State.schipOnly_of_schip h, if_neg (Nat.not_lt.mpr hx)]

theorem exec_loadRpl_of_gt (hx : 7 < x.toNat) :
    exec (.loadRpl x) s = .next (s.report (.rplIndexOutOfRange (encode (.loadRpl x)) x)) := by
  rw [exec, execLoadRpl, State.schipOnly_of_schip h, if_pos hx]

end Schip

/-! ### Moves between the registers and the RPL bytes -/

theorem State.getRpl_val (s : State) (k : Fin 8) : s.getRpl k.val = s.rpl[k] := by
  rw [State.getRpl, Vector.getElem?_eq_getElem k.isLt]
  rfl

theorem State.sameMemory_saveRplFrom (s : State) (k n : Nat) : SameMemory s (s.saveRplFrom k n) :=
  sameMemory_of_mem_eq (s.sameConfigKeys_saveRplFrom k n).1 (by rw [State.saveRplFrom_eq])

theorem State.onlyV_setRegsFrom (s : State) (k : Nat) (bs : List Byte) : OnlyV s (s.setRegsFrom k bs) :=
  ⟨s.setRegsFrom_eq k bs, sameMemory_of_mem_eq (s.sameConfigKeys_setRegsFrom k bs).1 (by rw [State.setRegsFrom_eq])⟩

/-- A run of `n` RPL bytes put into `V0`, `V1`, ... puts the `k`-th byte into `Vk`. -/
theorem State.getV_setRegsFrom_rplFrom (s : State) {n : Nat} (hn : n ≤ 16) (k : Fin 8) (hk : k.val < n) :
    (s.setRegsFrom 0 (s.rplFrom 0 n)).getV (BitVec.ofNat 4 k.val) = s.rpl[k] := by
  have htoNat : (BitVec.ofNat 4 k.val).toNat = k.val := by
    rw [BitVec.toNat_ofNat, Nat.mod_eq_of_lt (by omega)]
  rw [State.getV_setRegsFrom _ _ _ (by rw [State.length_rplFrom]; omega), htoNat, if_pos (Nat.zero_le _), Nat.sub_zero,
    State.getElem?_rplFrom _ _ _ _ hk, Option.getD_some, Nat.zero_add, State.getRpl_val]

/-! ### The obligations -/

/-- Settles O54: EXIT writes the quit flag alone, and a tick of a stopped core changes nothing. -/
theorem exitSetsQuit : Obligations.ExitSetsQuit :=
  ⟨encodes_encode .exit, fun _ hschip => exec_exit_of_schip hschip,
    fun _ hquit => step_of_stopped (State.stopped_of_quit hquit)⟩

/-- Settles O55: up to 7 the move is a run of writes of RPL bytes from the first on, and above 7 it is only a report. -/
theorem saveRegistersToRpl : Obligations.SaveRegistersToRpl := by
  refine fun x s hschip => ⟨encodes_encode (.saveRpl x), fun hx => ?_, fun hx =>
    ⟨_, exec_saveRpl_of_gt hschip hx, s.onlyReport_report _⟩⟩
  have hfits : 0 + regCount x ≤ 8 := (Nat.zero_add _).trans_le (Nat.succ_le_succ hx)
  refine ⟨_, exec_saveRpl_of_le hschip hx, s.saveRplFrom_eq _ _, s.sameMemory_saveRplFrom _ _, fun k => ?_⟩
  rw [s.rpl_saveRplFrom _ _ hfits]
  exact if_congr (by rw [regCount]; omega) rfl rfl

/-- Settles O56: up to 7 the move is a run of register writes from `V0` on, and above 7 it is only a report. -/
theorem loadRegistersFromRpl : Obligations.LoadRegistersFromRpl := by
  refine fun x s hschip => ⟨encodes_encode (.loadRpl x), fun hx => ?_, fun hx =>
    ⟨_, exec_loadRpl_of_gt hschip hx, s.onlyReport_report _⟩⟩
  refine ⟨_, exec_loadRpl_of_le hschip hx, s.onlyV_setRegsFrom _ _, fun k hk => ?_, fun r hr => ?_⟩
  · exact s.getV_setRegsFrom_rplFrom (regCount_le x) k (Nat.lt_succ_of_le hk)
  · exact s.getV_setRegsFrom_above (by rwa [State.length_rplFrom])

end Sys2Proof.Machine
end

section
/-! PROOFS. Exceptional conditions (60_exceptions.md): the stopped core, a key scan that ends a wait, the events of a tick,
and what the host's tick returns. -/

namespace Sys2Proof.Machine

variable {s t : State}

/-! ### The stopped core (R341, R381) -/

theorem State.stopped_iff : s.stopped = true ↔ s.fault ≠ none ∨ s.quit = true := by
  rw [State.stopped, Bool.or_eq_true, Option.isSome_iff_ne_none]

/-- A state that one step leaves as it is stays so through every run. -/
theorem run_of_step_self {M : Host.Core} {s : M.State} (h : M.step s = .next s) (k : Nat) : M.run k s = .next s := by
  induction k with
  | zero => rfl
  | succ k ih => exact (run_of_step M k s s h).trans ih

/-! ### A key scan that ends the wait (R342, D23) -/

theorem State.firstKey_eq_some {k : Fin 16} (hk : s.keys[k] = true) (hleast : ∀ j : Fin 16, j < k → s.keys[j] = false) :
    s.firstKey = some k.val := by
  refine s.firstKeyFrom_some 0 16 k.val (Nat.zero_le _) (by omega) (fun j _ hj => ?_) ?_
  · have hj16 : j < 16 := hj.trans k.isLt
    rw [Vector.getElem?_eq_getElem hj16]
    exact hleast ⟨j, hj16⟩ hj
  · rw [Vector.getElem?_eq_getElem k.isLt]
    exact hk

/-- A tick whose key scan finds a key is the tick of the state that has the key in the target register and waits no
longer: both fetch and execute from there. -/
theorem step_of_key {k : Nat} (hs : s.stopped = false) (ha : s.awaiting = true) (hk : s.firstKey = some k) :
    step s = step ((s.setV s.target (BitVec.ofNat 8 k)).withWait false s.target) := by
  have hscan : step s = ((s.setV s.target (BitVec.ofNat 8 k)).withWait false s.target).fetchExecute := by
    simp [step, tick, hs, State.scanKeys, ha, hk]
  exact hscan.trans (Eq.symm (step_of_running hs rfl))

/-! ### The events of a tick (R352, R356, R357) -/

/-- From `s` to `t` no event was emitted, or one was and no fatal condition was recorded. -/
def AtMostOneEvent (s t : State) : Prop :=
  t.reports = s.reports ∨ t.fault = s.fault ∧ ∃ r, t.reports = s.reports ++ [r]

theorem AtMostOneEvent.of_eq {u : State} (h : AtMostOneEvent s t) (hfault : u.fault = t.fault)
    (hreports : u.reports = t.reports) : AtMostOneEvent s u := by
  rw [AtMostOneEvent, hfault, hreports]
  exact h

theorem AtMostOneEvent.exists_events (h : AtMostOneEvent s t) :
    ∃ l : List Report, t.reports = s.reports ++ l ∧ l.length ≤ 1 ∧ (t.fault ≠ s.fault → l = []) := by
  obtain hnone | ⟨hfault, r, hone⟩ := h
  · exact ⟨[], hnone.trans (List.append_nil _).symm, Nat.zero_le 1, fun _ => rfl⟩
  · exact ⟨[r], hone, le_rfl, fun hne => absurd hfault hne⟩

/-- Of an instruction's effects only the report emits an event, and it leaves `fault`. -/
theorem Effect.atMostOneEvent {i : Instr} (h : Effect s i t) : AtMostOneEvent s t := by
  cases h with
  | reported r => exact .inr ⟨rfl, r, rfl⟩
  | _ => exact .inl rfl

theorem atMostOneEvent_execReject {e : Reject} (h : execReject e s = .next t) : AtMostOneEvent s t := by
  cases e with
  | unknownOpcode op => exact Host.Outcome.next.inj h ▸ .inr ⟨rfl, _, rfl⟩
  | truncated => exact Host.Outcome.next.inj h ▸ .inl rfl

theorem atMostOneEvent_execWord {op : Word} (h : execWord op s = .next t) : AtMostOneEvent s t := by
  unfold execWord at h
  split at h
  · exact (effect_exec h).atMostOneEvent
  · exact atMostOneEvent_execReject h

/-- The timer step neither records a fatal condition nor emits an event. -/
theorem State.fault_reports_endTick (s : State) : s.endTick.fault = s.fault ∧ s.endTick.reports = s.reports := by
  unfold State.endTick
  split <;> exact ⟨rfl, rfl⟩

theorem State.atMostOneEvent_fetchExecute (h : s.fetchExecute = .next t) : AtMostOneEvent s t := by
  obtain ⟨f, -, rfl⟩ | ⟨op, r, -, hr, rfl⟩ := State.fetchExecute_cases h
  · exact .inl rfl
  · have hword : AtMostOneEvent s r := atMostOneEvent_execWord (s := s.advancePc) hr
    exact hword.of_eq r.fault_reports_endTick.1 r.fault_reports_endTick.2

/-- The key scan neither records a fatal condition nor emits an event, so a tick's events are those of its instruction. -/
theorem atMostOneEvent_step (h : step s = .next t) : AtMostOneEvent s t := by
  obtain ⟨-, rfl⟩ | ⟨u, -, hscan, hrun⟩ := step_cases h
  · exact .inl rfl
  · have hinstr := State.atMostOneEvent_fetchExecute hrun
    obtain ⟨-, rfl⟩ | ⟨k, -, -, rfl⟩ := State.scanKeys_some hscan <;> exact hinstr

/-! ### What the host's tick returns (R340, R354) -/

theorem host_tick_of_step (h : step s = .next t) : s.host .tick = .next (t, tickResult s t) := by
  have htick : tick s = .next t := h
  rw [State.host, htick]

theorem tickResult_of_raised {f : Fault} (hs : s.fault = none) (ht : t.fault = some f) : tickResult s t = .failed f := by
  rw [tickResult, hs, ht]

theorem tickResult_of_not_raised (h : s.fault ≠ none ∨ t.fault = none) : tickResult s t = .ok := by
  unfold tickResult
  split
  next f hs ht => simp [hs, ht] at h
  next => rfl

/-! ### The obligations -/

/-- Settles O9: the fatal condition and the quit flag each stop the core, and its one step repeats. -/
theorem stoppedCoreStaysAsItIs : Obligations.StoppedCoreStaysAsItIs := by
  intro s k h
  have hstep : step s = .next s := step_of_stopped (State.stopped_iff.mpr h)
  exact ⟨hstep, run_of_step_self (M := core) hstep k⟩

/-- Settles O10: the least pressed key is the one the scan finds. -/
theorem keyWaitScan : Obligations.KeyWaitScan := fun _ hs ha =>
  ⟨fun hnone => step_of_waiting ha hs (State.firstKey_eq_none hnone),
    fun _ hk hleast => step_of_key hs ha (State.firstKey_eq_some hk hleast)⟩

/-- Settles O23: it is `atMostOneEvent_step`, with the event, if there is one, as a list. -/
theorem atMostOneEventPerTick : Obligations.AtMostOneEventPerTick :=
  fun _ _ h => (atMostOneEvent_step h).exists_events

/-- Settles O28: the host's tick is the step, and its result compares `fault` before and after. -/
theorem tickReturnsFailedWhenRaised : Obligations.TickReturnsFailedWhenRaised :=
  fun _ _ h => ⟨_, host_tick_of_step h, fun _ => tickResult_of_raised, tickResult_of_not_raised⟩

end Sys2Proof.Machine
end

section
/-! PROOFS. Reset and the host's operations (70_reset_and_hazards.md): the state reset leaves, the loading of a program,
the reads and the key latch, and the invariant over every host operation. -/

namespace Sys2Proof.Machine

variable {s t : State} {c : Config} {bytes : List Byte}

/-! ### The reset state (R400 to R402, R410) -/

/-- The reset state meets the invariant: it lists no byte of memory, and its framebuffer is blank at 64 by 32. -/
theorem State.wf_resetWith (c : Config) : (State.resetWith c).wf = true :=
  State.wf_iff.mpr ⟨Memory.wf_nil, Screen.wf_blank 64 32⟩

/-- Neither the draws taken nor the events emitted before (log 3, log 5) bear on the reset values. -/
theorem atReset_resetWith (c : Config) (draws : Nat) (reports : List Report) :
    AtReset (((State.resetWith c).withDraws draws).withReports reports) where
  v x := Vector.getElem_replicate x.isLt
  i := rfl
  pc := rfl
  stack j := Vector.getElem_replicate j.isLt
  sp := rfl
  dt := rfl
  st := rfl
  keys k := Vector.getElem_replicate k.isLt
  awaiting := rfl
  target := rfl
  hires := rfl
  fbSize := Screen.wf_blank 64 32
  fb := Screen.pixel_blank 64 32
  changed := rfl
  rpl k := Vector.getElem_replicate k.isLt
  quit := rfl
  fault := rfl

theorem State.readByte_of_mem_nil (hmem : s.mem = []) (a : Nat) : s.readByte a = resetByte s.cfg a := by
  rw [State.readByte, hmem, Memory.read_nil]

theorem Config.le_largeFontBase (hc : c.wellFormed = true) : 0x0A0 ≤ c.largeFontBase.toNat :=
  of_decide_eq_true (Bool.and_eq_true_iff.mp hc).1

/-- Memory in which nothing is listed holds the fonts, where R12 keeps the large font off the small one. -/
theorem memoryAtReset_of_mem_nil (hc : s.cfg.wellFormed = true) (hmem : s.mem = []) : MemoryAtReset s.cfg s where
  fontSmall k := (State.readByte_of_mem_nil hmem _).trans (resetByte_fontSmall s.cfg k)
  fontLarge k := (State.readByte_of_mem_nil hmem _).trans (resetByte_fontLarge (Config.le_largeFontBase hc) k)
  other _ hsmall hlarge := (State.readByte_of_mem_nil hmem _).trans (resetByte_other hsmall hlarge)

theorem State.memoryAtReset_hostReset (hc : s.cfg.wellFormed = true) : MemoryAtReset s.cfg s.hostReset :=
  memoryAtReset_of_mem_nil (s := s.hostReset) hc rfl

theorem State.memoryAtReset_resetWith (hc : c.wellFormed = true) : MemoryAtReset c (State.resetWith c) :=
  memoryAtReset_of_mem_nil (s := State.resetWith c) hc rfl

/-! ### load_program (R404, D29, D30) -/

/-- An image within the limit ends by the last address of memory. -/
theorem programBase_add_length_le (h : bytes.length ≤ romLimit c) : programBase + bytes.length ≤ memSize :=
  (Nat.le_sub_iff_add_le' (by decide : programBase ≤ memSize)).mp (h.trans (Nat.min_le_right _ _))

theorem State.loadProgram_of_long (h : romLimit s.cfg < bytes.length) : s.loadProgram bytes = (s, .romTooLarge) :=
  if_pos h

theorem State.loadProgram_of_fits (h : bytes.length ≤ romLimit s.cfg) :
    s.loadProgram bytes = (s.storeBytes programBase bytes, .ok) :=
  if_neg (Nat.not_lt.mpr h)

/-- A run of stores within memory keeps the invariant: it writes memory in canonical form, and nothing else. -/
theorem State.wf_storeBytes_of_fits {a : Nat} (hs : s.wf = true) (hfits : a + bytes.length ≤ memSize) :
    (s.storeBytes a bytes).wf = true := by
  obtain ⟨hmem, hscreen⟩ := State.wf_iff.mp hs
  refine State.wf_iff.mpr ⟨?_, ?_⟩
  · rw [State.MemWf, State.storeBytes_cfg]
    exact s.wf_storeBytes hmem a bytes hfits
  · rw [State.storeBytes_eq]
    exact hscreen

theorem State.wf_loadProgram (hs : s.wf = true) (bytes : List Byte) : (s.loadProgram bytes).1.wf = true := by
  obtain hlong | hfits := Nat.lt_or_ge (romLimit s.cfg) bytes.length
  · rwa [State.loadProgram_of_long hlong]
  · rw [State.loadProgram_of_fits hfits]
    exact State.wf_storeBytes_of_fits hs (programBase_add_length_le hfits)

/-! ### Every host operation (R404 to R412) -/

/-- The host's tick answers the state of the core's step. -/
theorem step_of_host_tick {r : HostResult} (h : s.host .tick = .next (t, r)) : step s = .next t := by
  obtain ⟨u, hu⟩ := step_eq_next s
  have hpair : (u, tickResult s u) = (t, r) := Host.Outcome.next.inj ((host_tick_of_step hu).symm.trans h)
  rw [hu, (Prod.mk.inj hpair).1]

/-- Only reset, load_program and the tick write what the invariant speaks of. -/
theorem State.wf_host {op : HostOp} {r : HostResult} (hs : s.wf = true) (h : s.host op = .next (t, r)) : t.wf = true := by
  cases op with
  | tick => exact wf_step hs (step_of_host_tick h)
  | reset => cases h; exact State.wf_resetWith s.cfg
  | loadProgram bytes =>
    have hload : s.loadProgram bytes = (t, r) := Host.Outcome.next.inj h
    simpa only [hload] using State.wf_loadProgram hs bytes
  | setKeys | readFramebuffer | readSoundTimer | readQuit => cases h; exact hs

/-! ### The obligations -/

/-- Settles O15: it is `State.wf_host`, by cases of the operation. -/
theorem hostMoveKeepsInvariant : Obligations.HostMoveKeepsInvariant := fun _ _ _ _ hs h => State.wf_host hs h

/-- Settles O25: reset lists no byte of memory, so every address reads as `resetByte` says. -/
theorem resetMemoryHoldsFonts : Obligations.ResetMemoryHoldsFonts := by
  intro s t hc h
  cases h
  exact State.memoryAtReset_hostReset hc

/-- Settles O26: within the limit the image is a run of stores that fits memory. -/
theorem loadProgramCopiesOrFails : Obligations.LoadProgramCopiesOrFails := by
  refine fun s bytes hwf => ⟨fun hlong => congrArg _ (State.loadProgram_of_long hlong), fun hfits => ?_⟩
  have hs : s.MemWf := (State.wf_iff.mp hwf).1
  have hroom : programBase + bytes.length ≤ memSize := programBase_add_length_le hfits
  refine ⟨_, congrArg _ (State.loadProgram_of_fits hfits), s.storeBytes_eq _ _, fun k hk => ?_,
    State.sameMemoryOutside_storeBytes hs hroom⟩
  have hbyte : bytes[k]? = some bytes[k] := List.getElem?_eq_getElem hk
  rw [hbyte]
  exact congrArg some (State.readByte_storeBytes_of_getElem? hs hroom hbyte)

/-- Settles O13: it is `State.wf_resetWith`, of which the default configuration is one case. -/
theorem resetMeetsInvariant : Obligations.ResetMeetsInvariant := ⟨State.wf_resetWith defaultConfig, State.wf_resetWith⟩

/-- Settles O24: construction is the reset state with no draw taken and no event emitted, and the default configuration
is admitted. -/
theorem resetLeavesResetValues : Obligations.ResetLeavesResetValues :=
  ⟨fun s => ⟨s.hostReset, rfl, atReset_resetWith s.cfg s.draws s.reports, rfl, State.memoryAtReset_hostReset⟩,
    fun c => ⟨atReset_resetWith c 0 [], rfl, State.memoryAtReset_resetWith⟩,
    atReset_resetWith defaultConfig 0 [], State.memoryAtReset_resetWith (c := defaultConfig) (by decide)⟩

/-- Settles O27: each of these operations is one field update, or none, with its answer read beforehand. -/
theorem hostReadsAndKeys : Obligations.HostReadsAndKeys := fun _ _ => ⟨rfl, rfl, rfl, rfl⟩

end Sys2Proof.Machine
end
